-- ==== Sys2Proof/Word.lean ====
section
/-! DEFINITION. The words of the machine (R8, R16–R19): bytes, 16-bit words, register selectors. -/

namespace Sys2Proof

/-- An 8-bit value: a V register, a timer, a memory byte (R8, R44). -/
abbrev Byte := BitVec 8

/-- A 16-bit value: I, pc, a return address, an instruction word (R8, R63). -/
abbrev Word := BitVec 16

/-- A 12-bit address immediate, the field nnn (R64). -/
abbrev Addr := BitVec 12

/-- The number of a general register, V0–VF (R25). -/
abbrev Reg := Fin 16

/-- The number of VF (R26). -/
abbrev VF : Reg := 15

end Sys2Proof
end

