-- ==== Sys2Proof/Syntax.lean ====
section
/-! DEFINITION. The instructions: one constructor for each row of the opcode map (R67) and one for the no-op fallback (R70). -/

namespace Sys2Proof

/-- A decoded instruction (R69). x and y select V registers; nn is a byte, nnn an address, n a row count (R64). -/
inductive Instr where
  /-- 00E0, CLS (R110). -/
  | cls
  /-- 00EE, RET (R80). -/
  | ret
  /-- 1nnn, JP nnn (R81). -/
  | jp (nnn : Addr)
  /-- 2nnn, CALL nnn (R82). -/
  | call (nnn : Addr)
  /-- 3xnn, SE Vx, nn (R84). -/
  | seImm (x : Reg) (nn : Byte)
  /-- 4xnn, SNE Vx, nn (R85). -/
  | sneImm (x : Reg) (nn : Byte)
  /-- 5xy0, SE Vx, Vy (R86). -/
  | seReg (x y : Reg)
  /-- 6xnn, LD Vx, nn (R90). -/
  | ldImm (x : Reg) (nn : Byte)
  /-- 7xnn, ADD Vx, nn (R91). -/
  | addImm (x : Reg) (nn : Byte)
  /-- 8xy0, LD Vx, Vy (R92). -/
  | ldReg (x y : Reg)
  /-- 8xy1, OR Vx, Vy (R93). -/
  | or (x y : Reg)
  /-- 8xy2, AND Vx, Vy (R94). -/
  | and (x y : Reg)
  /-- 8xy3, XOR Vx, Vy (R95). -/
  | xor (x y : Reg)
  /-- 8xy4, ADD Vx, Vy (R96). -/
  | addReg (x y : Reg)
  /-- 8xy5, SUB Vx, Vy (R97). -/
  | sub (x y : Reg)
  /-- 8xy6, SHR Vx, Vy (R98): y is encoded and never read. -/
  | shr (x y : Reg)
  /-- 8xy7, SUBN Vx, Vy (R99). -/
  | subn (x y : Reg)
  /-- 8xyE, SHL Vx, Vy (R100): y is encoded and never read. -/
  | shl (x y : Reg)
  /-- 9xy0, SNE Vx, Vy (R87). -/
  | sneReg (x y : Reg)
  /-- Annn, LD I, nnn (R102). -/
  | ldI (nnn : Addr)
  /-- Bnnn, JP V0, nnn (R88). -/
  | jpV0 (nnn : Addr)
  /-- Cxnn, RND Vx, nn (R101). -/
  | rnd (x : Reg) (nn : Byte)
  /-- Dxyn, DRW Vx, Vy, n (R111). -/
  | drw (x y : Reg) (n : Fin 16)
  /-- Ex9E, SKP Vx (R113). -/
  | skp (x : Reg)
  /-- ExA1, SKNP Vx (R114). -/
  | sknp (x : Reg)
  /-- Fx07, LD Vx, DT (R115). -/
  | ldVxDt (x : Reg)
  /-- Fx0A, LD Vx, K (R116). -/
  | ldVxK (x : Reg)
  /-- Fx15, LD DT, Vx (R117). -/
  | ldDtVx (x : Reg)
  /-- Fx18, LD ST, Vx (R118). -/
  | ldStVx (x : Reg)
  /-- Fx1E, ADD I, Vx (R103). -/
  | addI (x : Reg)
  /-- Fx29, LD F, Vx (R104). -/
  | ldF (x : Reg)
  /-- Fx33, LD B, Vx (R105). -/
  | ldB (x : Reg)
  /-- Fx55, LD [I], Vx (R106). -/
  | ldMemVx (x : Reg)
  /-- Fx65, LD Vx, [I] (R107). -/
  | ldVxMem (x : Reg)
  /-- NOP, DW w: a word that matches no row (R70, R79). -/
  | nop (w : Word)
deriving DecidableEq, Repr

end Sys2Proof
end

