-- ==== Sys2Proof/WellFormed.lean ====
section
/-! DEFINITION. Which instructions are well formed. The field types hold every bound of R64 but one: a NOP's word is an
unassigned word, as R70 lists them. -/

namespace Sys2Proof

/-- The unassigned words, written from R70's own list, not from the opcode map. -/
def unassigned (w : Word) : Bool :=
  let n := w.extractLsb' 0 4
  let nn := w.extractLsb' 0 8
  match (w.extractLsb' 12 4).toNat with
  | 0x0 => !(w == 0x00E0 || w == 0x00EE)
  | 0x5 => n != 0x0
  | 0x8 => [0x8, 0x9, 0xA, 0xB, 0xC, 0xD, 0xF].contains n
  | 0x9 => n != 0x0
  | 0xE => !([0x9E, 0xA1].contains nn)
  | 0xF => !([0x07, 0x0A, 0x15, 0x18, 0x1E, 0x29, 0x33, 0x55, 0x65].contains nn)
  | _ => false

/-- An instruction is well formed when its word, if it is a NOP, is one that R70 leaves unassigned. -/
def Instr.wellFormed : Instr → Bool
  | .nop w => unassigned w
  | .cls | .ret => true
  | .jp _ | .call _ | .ldI _ | .jpV0 _ => true
  | .seImm _ _ | .sneImm _ _ | .ldImm _ _ | .addImm _ _ | .rnd _ _ => true
  | .seReg _ _ | .ldReg _ _ | .or _ _ | .and _ _ | .xor _ _ | .addReg _ _ | .sub _ _ => true
  | .shr _ _ | .subn _ _ | .shl _ _ | .sneReg _ _ => true
  | .drw _ _ _ => true
  | .skp _ | .sknp _ | .ldVxDt _ | .ldVxK _ | .ldDtVx _ | .ldStVx _ => true
  | .addI _ | .ldF _ | .ldB _ | .ldMemVx _ | .ldVxMem _ => true

end Sys2Proof
end

