-- ==== Sys2Proof/Decode.lean ====
section
/-! DEFINITION. Decoding by the opcode map (R67, R68), the encoder from the same layouts (R66), and the byte order of the
instruction stream (R53, R63). -/

namespace Sys2Proof

/-! ## Fields (R64) -/

/-- The major opcode, bits 15–12. -/
def fieldOp (w : Word) : BitVec 4 := w.extractLsb' 12 4

/-- The register selector x, bits 11–8. -/
def fieldX (w : Word) : Reg := (w.extractLsb' 8 4).toFin

/-- The register selector y, bits 7–4. -/
def fieldY (w : Word) : Reg := (w.extractLsb' 4 4).toFin

/-- The low nibble as a sub-opcode, bits 3–0. -/
def fieldLow (w : Word) : BitVec 4 := w.extractLsb' 0 4

/-- The nibble n as a row count, bits 3–0. -/
def fieldN (w : Word) : Fin 16 := (fieldLow w).toFin

/-- The byte immediate nn, bits 7–0. -/
def fieldNN (w : Word) : Byte := w.extractLsb' 0 8

/-- The address immediate nnn, bits 11–0. -/
def fieldNNN (w : Word) : Addr := w.extractLsb' 0 12

/-! ## The opcode map (R67) -/

/-- A row of the opcode map: a word w selects it when w AND mask is the row's match value. -/
structure Row where
  value : Word
  mask  : Word
  build : Word → Instr

/-- Whether a word selects a row (R67). -/
def Row.selects (r : Row) (w : Word) : Bool := w &&& r.mask == r.value

/-- Rows 1–9: op 0x0 decoded on the whole word, op 0x5 on op and the low nibble, the others on op alone. -/
def rowsOp : List Row := [
  ⟨0x00E0, 0xFFFF, fun _ => .cls⟩,
  ⟨0x00EE, 0xFFFF, fun _ => .ret⟩,
  ⟨0x1000, 0xF000, fun w => .jp (fieldNNN w)⟩,
  ⟨0x2000, 0xF000, fun w => .call (fieldNNN w)⟩,
  ⟨0x3000, 0xF000, fun w => .seImm (fieldX w) (fieldNN w)⟩,
  ⟨0x4000, 0xF000, fun w => .sneImm (fieldX w) (fieldNN w)⟩,
  ⟨0x5000, 0xF00F, fun w => .seReg (fieldX w) (fieldY w)⟩,
  ⟨0x6000, 0xF000, fun w => .ldImm (fieldX w) (fieldNN w)⟩,
  ⟨0x7000, 0xF000, fun w => .addImm (fieldX w) (fieldNN w)⟩]

/-- Rows 10–18: op 0x8, decoded on the low nibble. -/
def rowsAlu : List Row := [
  ⟨0x8000, 0xF00F, fun w => .ldReg (fieldX w) (fieldY w)⟩,
  ⟨0x8001, 0xF00F, fun w => .or (fieldX w) (fieldY w)⟩,
  ⟨0x8002, 0xF00F, fun w => .and (fieldX w) (fieldY w)⟩,
  ⟨0x8003, 0xF00F, fun w => .xor (fieldX w) (fieldY w)⟩,
  ⟨0x8004, 0xF00F, fun w => .addReg (fieldX w) (fieldY w)⟩,
  ⟨0x8005, 0xF00F, fun w => .sub (fieldX w) (fieldY w)⟩,
  ⟨0x8006, 0xF00F, fun w => .shr (fieldX w) (fieldY w)⟩,
  ⟨0x8007, 0xF00F, fun w => .subn (fieldX w) (fieldY w)⟩,
  ⟨0x800E, 0xF00F, fun w => .shl (fieldX w) (fieldY w)⟩]

/-- Rows 19–23: op 0x9 decoded on op and the low nibble, the others on op alone. -/
def rowsHigh : List Row := [
  ⟨0x9000, 0xF00F, fun w => .sneReg (fieldX w) (fieldY w)⟩,
  ⟨0xA000, 0xF000, fun w => .ldI (fieldNNN w)⟩,
  ⟨0xB000, 0xF000, fun w => .jpV0 (fieldNNN w)⟩,
  ⟨0xC000, 0xF000, fun w => .rnd (fieldX w) (fieldNN w)⟩,
  ⟨0xD000, 0xF000, fun w => .drw (fieldX w) (fieldY w) (fieldN w)⟩]

/-- Rows 24–34: op 0xE and op 0xF, decoded on the low byte. -/
def rowsByte : List Row := [
  ⟨0xE09E, 0xF0FF, fun w => .skp (fieldX w)⟩,
  ⟨0xE0A1, 0xF0FF, fun w => .sknp (fieldX w)⟩,
  ⟨0xF007, 0xF0FF, fun w => .ldVxDt (fieldX w)⟩,
  ⟨0xF00A, 0xF0FF, fun w => .ldVxK (fieldX w)⟩,
  ⟨0xF015, 0xF0FF, fun w => .ldDtVx (fieldX w)⟩,
  ⟨0xF018, 0xF0FF, fun w => .ldStVx (fieldX w)⟩,
  ⟨0xF01E, 0xF0FF, fun w => .addI (fieldX w)⟩,
  ⟨0xF029, 0xF0FF, fun w => .ldF (fieldX w)⟩,
  ⟨0xF033, 0xF0FF, fun w => .ldB (fieldX w)⟩,
  ⟨0xF055, 0xF0FF, fun w => .ldMemVx (fieldX w)⟩,
  ⟨0xF065, 0xF0FF, fun w => .ldVxMem (fieldX w)⟩]

/-- The 34 rows of R67, in its order. -/
def opcodeMap : List Row := rowsOp ++ (rowsAlu ++ (rowsHigh ++ rowsByte))

/-- `Decode(w)` of R68: the first row that matches, otherwise NOP; total on every word (R71). -/
def decode (w : Word) : Instr :=
  match opcodeMap.find? (·.selects w) with
  | some r => r.build w
  | none   => .nop w

/-- Why a byte string holds no instruction. -/
inductive DecodeError where
  /-- fewer than two bytes: an instruction is two bytes (R63) -/
  | truncated
deriving DecidableEq, Repr

/-- The word of two bytes, the one at the lower address being the high half (R53, R54). -/
def wordOfBytes (hi lo : Byte) : Word := hi ++ lo

/-- The high byte of a word. -/
def highByte (w : Word) : Byte := w.extractLsb' 8 8

/-- The low byte of a word. -/
def lowByte (w : Word) : Byte := w.extractLsb' 0 8

/-- The instruction at the head of a byte string, and the rest of it. -/
def decodeBytes : List Byte → Except DecodeError (Instr × List Byte)
  | hi :: lo :: rest => .ok (decode (wordOfBytes hi lo), rest)
  | _ => .error .truncated

/-! ## The encoder (R66, R67) -/

/-- A nibble of the word, from a register number or a row count. -/
def nibble (x : Fin 16) : BitVec 4 := BitVec.ofFin x

/-- Format A: `oooo nnnn nnnn nnnn`. -/
def formatA (op : BitVec 4) (nnn : Addr) : Word := op ++ nnn

/-- Format XB: `oooo xxxx nnnn nnnn`. -/
def formatXB (op : BitVec 4) (x : Reg) (nn : Byte) : Word := op ++ (nibble x ++ nn)

/-- Formats XY and XYN: `oooo xxxx yyyy ssss`. -/
def formatXY (op : BitVec 4) (x y : Reg) (low : BitVec 4) : Word := op ++ (nibble x ++ (nibble y ++ low))

/-- Format X: `oooo xxxx ssss ssss`. -/
def formatX (op : BitVec 4) (x : Reg) (low : Byte) : Word := op ++ (nibble x ++ low)

/-- The word of an instruction. -/
def encode : Instr → Word
  | .cls          => 0x00E0
  | .ret          => 0x00EE
  | .jp nnn       => formatA 0x1 nnn
  | .call nnn     => formatA 0x2 nnn
  | .seImm x nn   => formatXB 0x3 x nn
  | .sneImm x nn  => formatXB 0x4 x nn
  | .seReg x y    => formatXY 0x5 x y 0x0
  | .ldImm x nn   => formatXB 0x6 x nn
  | .addImm x nn  => formatXB 0x7 x nn
  | .ldReg x y    => formatXY 0x8 x y 0x0
  | .or x y       => formatXY 0x8 x y 0x1
  | .and x y      => formatXY 0x8 x y 0x2
  | .xor x y      => formatXY 0x8 x y 0x3
  | .addReg x y   => formatXY 0x8 x y 0x4
  | .sub x y      => formatXY 0x8 x y 0x5
  | .shr x y      => formatXY 0x8 x y 0x6
  | .subn x y     => formatXY 0x8 x y 0x7
  | .shl x y      => formatXY 0x8 x y 0xE
  | .sneReg x y   => formatXY 0x9 x y 0x0
  | .ldI nnn      => formatA 0xA nnn
  | .jpV0 nnn     => formatA 0xB nnn
  | .rnd x nn     => formatXB 0xC x nn
  | .drw x y n    => formatXY 0xD x y (nibble n)
  | .skp x        => formatX 0xE x 0x9E
  | .sknp x       => formatX 0xE x 0xA1
  | .ldVxDt x     => formatX 0xF x 0x07
  | .ldVxK x      => formatX 0xF x 0x0A
  | .ldDtVx x     => formatX 0xF x 0x15
  | .ldStVx x     => formatX 0xF x 0x18
  | .addI x       => formatX 0xF x 0x1E
  | .ldF x        => formatX 0xF x 0x29
  | .ldB x        => formatX 0xF x 0x33
  | .ldMemVx x    => formatX 0xF x 0x55
  | .ldVxMem x    => formatX 0xF x 0x65
  | .nop w        => w

/-- The two bytes of an instruction, in address order (R53). -/
def encodeBytes (i : Instr) : List Byte := [highByte (encode i), lowByte (encode i)]

/-- The word the opcode table numbers w with nbits bits; the bits above are 0. -/
def tableWord (nbits w : Nat) : Word := BitVec.ofNat 16 (w % 2 ^ nbits)

/-- The instruction the decoder reads from a word of the opcode table, laid out as the machine stores it. Every
instruction is one word, so more than 16 bits are no instruction. -/
def decodeTableWord (nbits w : Nat) : Option Instr :=
  if nbits ≤ 16 then
    match decodeBytes [highByte (tableWord nbits w), lowByte (tableWord nbits w)] with
    | .ok (i, _) => some i
    | .error _ => none
  else none

end Sys2Proof
end

