-- ==== Sys2Proof/Config.lean ====
section
/-! DEFINITION. What an implementation fixes: the sizes of the spec, its parameters with their defaults, and the free values. -/

namespace Sys2Proof.Config

/-- MEM_SIZE (R7). -/
def memSize : Nat := 0x1000

/-- The size of the font region 0x000–0x04F (R12, R45). -/
def fontSize : Nat := 0x50

/-- The first address of the program region, and the reset value of pc (R29, R47). -/
def programBase : Nat := 0x200

/-- The longest program image, 4096 − 0x200 bytes (R149). -/
def maxImage : Nat := 3584

/-- The least cycle budget (R10). -/
def minCycles : Nat := 1

/-- The largest cycle budget (R10). -/
def maxCycles : Nat := 30

/-- The cycle budget at power-on (R10, R147). -/
def powerOnCycles : Nat := 10

/-- The glyphs 0–3, 4–7, 8–B and C–F of the default FONT, five bytes each (R48). -/
def glyphs0to3 : Vector Byte 20 :=
  #v[0xF0, 0x90, 0x90, 0x90, 0xF0, 0x20, 0x60, 0x20, 0x20, 0x70,
     0xF0, 0x10, 0xF0, 0x80, 0xF0, 0xF0, 0x10, 0xF0, 0x10, 0xF0]
@[inherit_doc glyphs0to3] def glyphs4to7 : Vector Byte 20 :=
  #v[0x90, 0x90, 0xF0, 0x10, 0x10, 0xF0, 0x80, 0xF0, 0x10, 0xF0,
     0xF0, 0x80, 0xF0, 0x90, 0xF0, 0xF0, 0x10, 0x20, 0x40, 0x40]
@[inherit_doc glyphs0to3] def glyphs8toB : Vector Byte 20 :=
  #v[0xF0, 0x90, 0xF0, 0x90, 0xF0, 0xF0, 0x90, 0xF0, 0x10, 0xF0,
     0xF0, 0x90, 0xF0, 0x90, 0x90, 0xE0, 0x90, 0xE0, 0x90, 0xE0]
@[inherit_doc glyphs0to3] def glyphsCtoF : Vector Byte 20 :=
  #v[0xF0, 0x80, 0x80, 0x80, 0xF0, 0xE0, 0x90, 0x90, 0x90, 0xE0,
     0xF0, 0x80, 0xF0, 0x80, 0xF0, 0xF0, 0x80, 0xF0, 0x80, 0x80]

/-- The default FONT (R48; the spec's own general knowledge K1, log 1). -/
def defaultFont : Vector Byte 80 := glyphs0to3 ++ glyphs4to7 ++ glyphs8toB ++ glyphsCtoF

/-- The parameters of the spec that have a default (R9, R11, R12). A state carries them, and no step or event changes
them, so a claim about every state is a claim about every value of them (log 5). -/
structure Params where
  /-- FONT: the bytes of 0x000–0x04F (R12). -/
  font : Vector Byte 80
  /-- FB_WIDTH, W (R9). -/
  fbWidth : Nat
  /-- FB_HEIGHT, H (R9). -/
  fbHeight : Nat
  /-- STACK_LIMIT: none is ∞, the source's unbounded stack (R11). -/
  stackLimit : Option Nat
deriving DecidableEq, Repr

/-- W and H are positive (R9). -/
abbrev Params.ok (p : Params) : Prop := 0 < p.fbWidth ∧ 0 < p.fbHeight

/-- The defaults: W = 64, H = 32, no stack limit, the font of R48 (R9, R11, R12). -/
def Params.default : Params where
  font := defaultFont
  fbWidth := 64
  fbHeight := 32
  stackLimit := none

/-- RandByte: the answer to the n-th draw. A free value: any byte, with no law between draws (R13, R134; log 4). -/
opaque randByte : Nat → Byte

/-- STEP_ONCE_TICKS_TIMERS: whether the host's single step decays the timers. OPEN, so a free value (R15; log 6). -/
opaque stepOnceTicksTimers : Bool

/-- TICK_PERIOD. OPEN, and no rule uses it (R14; log 7). -/
opaque tickPeriod : Nat

end Sys2Proof.Config
end

