-- ==== Sys2Proof/Machine/State.lean ====
section
/-! DEFINITION. The state of the block (R25–R42), the faults of R120, the refusals of the host interface, and the state
after reset. -/

namespace Sys2Proof.Machine

open Sys2Proof.Config

/-- The await-key latch (R34). -/
inductive Mode where
  | running
  /-- a pressed key's code goes to register d -/
  | awaitingKey (d : Reg)
deriving DecidableEq, Repr

/-- The fault codes of R120. A fault is taken as a next state in which the latch `State.fault` records it, as R121 and
R122 describe its entry; no step answers `Host.Outcome.fault` (log 2). Each is safe: the machine stops where the source
leaves the result undefined. -/
inductive Fault where
  /-- Raised by the fetch of a step with pc0 + 1 above 0xFFF (R53). Safe. -/
  | fetchRange
  /-- Raised by Dxyn, Fx33, Fx55 and Fx65 when an address they access is above 0xFFF (R57). Safe. -/
  | memRange
  /-- Raised by Fx33 and Fx55 when an address they write is at most 0x04F (R57). Safe. -/
  | fontWrite
  /-- Raised by 00EE on an empty stack (R80). Safe. -/
  | stackUnderflow
  /-- Raised by 2nnn on a stack of STACK_LIMIT addresses (R82). Safe. -/
  | stackOverflow
  /-- Raised by Ex9E and ExA1 when V[x] is above 0xF (R113, R114). Safe. -/
  | keyRange
  /-- Raised by Fx1E when the sum is above 0xFFFF (R103). Safe. -/
  | indexOverflow
deriving DecidableEq, Repr

/-- Why the block rejects something. A rejected host event changes no state. -/
inductive Refusal where
  /-- Raised by an arm of exec whose instruction has no meaning yet; no arm is left so. Safe. -/
  | notModelled (mnemonic : String)
  /-- Raised by setKey with a code outside 0 … 15 (R132). Safe. -/
  | keyCodeOutOfRange
  /-- Raised by load with more than 3584 bytes (R149). Safe. -/
  | imageTooLong
  /-- Raised by setCyclesPerTick outside 1 … 30 (R140). Safe. -/
  | cyclesOutOfRange
  /-- Raised by reset, load, tick, stepOnce and setCyclesPerTick while a tick is in progress (R136, R138, R142; log 10). Safe. -/
  | tickInProgress
deriving DecidableEq, Repr

/-- What the fault latch records (R35, R121). -/
structure FaultRecord where
  code : Fault
  /-- the address of the faulting instruction -/
  pc0  : Word
  /-- the fetched word, absent for FETCH_RANGE -/
  word : Option Word
  /-- the offending address or value, where R120 gives one -/
  info : Option Nat
deriving DecidableEq, Repr

/-- What the frame output presents (R133, R136, R141). -/
structure FrameReport where
  /-- the grid's size and its set pixels -/
  width    : Nat
  height   : Nat
  fb       : List Nat
  dirty    : Bool
  executed : List Word
  v        : Vector Byte 16
  i        : Word
  pc       : Word
deriving DecidableEq, Repr

/-- The output events of the block (R129, R133, R141). -/
inductive Output where
  | beep
  | frameComplete (report : FrameReport)
deriving DecidableEq, Repr

/-- Where the Scheduler stands in a tick: the local k of R136, which R138 makes visible between two steps (log 9). -/
inductive Phase where
  /-- no tick is in progress -/
  | between
  /-- a tick has made this many steps and its next move is a step -/
  | stepping (done : Nat)
  /-- a tick has made its steps; its decay and frame output come next -/
  | finishing
deriving DecidableEq, Repr

/-- The state of the block, with what its host does between ticks. -/
structure State where
  /-- V0–VF (R25) -/
  v             : Vector Byte 16
  /-- the index register I (R28) -/
  i             : Word
  /-- the program counter (R29) -/
  pc            : Word
  /-- the call stack, oldest address first (R30) -/
  stack         : List Word
  /-- the delay timer DT (R31) -/
  dt            : Byte
  /-- the sound timer ST (R32) -/
  st            : Byte
  /-- the key states (R33) -/
  keys          : Vector Bool 16
  /-- the await-key latch (R34) -/
  mode          : Mode
  /-- the fault latch (R35) -/
  fault         : Option FaultRecord
  /-- the framebuffer: the row-major indexes of its set pixels, rising (R36; log 16) -/
  fb            : List Nat
  /-- the framebuffer-dirty signal (R37) -/
  dirty         : Bool
  /-- the pc0 of every completed step of the tick (R39) -/
  executed      : List Word
  /-- the cycle budget (R40) -/
  cyclesPerTick : Nat
  /-- the bytes of memory that differ from the reset contents, by rising address (R44; log 16) -/
  mem           : List Host.Cell
  /-- the Scheduler's place in a tick (R136) -/
  phase         : Phase
  /-- the MODEL's own: whether the host issues ticks, one after the other, as `play()` and `pause()` say (R140; log 8) -/
  playing       : Bool
  /-- the parameters FONT, W, H and STACK_LIMIT (R9, R11, R12; log 5) -/
  params        : Params
  /-- the MODEL's own: how many draws of RandByte have been taken (log 4) -/
  draws         : Nat
  /-- the MODEL's own: the output events so far, oldest first (log 12) -/
  outputs       : List Output
deriving DecidableEq, Repr

/-- The state right after reset, which is the state at power-on: R42, R146 and R147, with the default parameters. -/
def State.reset : State where
  v             := Vector.replicate 16 0
  i             := 0
  pc            := BitVec.ofNat 16 programBase
  stack         := []
  dt            := 0
  st            := 0
  keys          := Vector.replicate 16 false
  mode          := .running
  fault         := none
  fb            := []
  dirty         := false
  executed      := []
  cyclesPerTick := powerOnCycles
  mem           := []
  phase         := .between
  playing       := false
  params        := Params.default
  draws         := 0
  outputs       := []

end Sys2Proof.Machine
end

