-- ==== Sys2Proof/Machine/Ops.lean ====
section
/-! DEFINITION. The shared operations: memory, registers, the stack, the framebuffer, the keypad, taking a fault and
completing a step. -/

namespace Sys2Proof.Machine

open Sys2Proof.Config

/-! ## Memory (R44–R58) -/

/-- What an address reads as when memory does not list it: the reset contents, FONT and then zeros (R42, R48). -/
def Memory.unlisted (font : Vector Byte 80) (a : Nat) : Byte :=
  if h : a < 80 then font[a] else 0

/-- M[a] (R44). -/
def Memory.read (font : Vector Byte 80) : List Host.Cell → Nat → Byte
  | [], a => Memory.unlisted font a
  | c :: m, a => if a = c.1 then c.2 else Memory.read font m a

/-- Put a cell before a list of cells of higher addresses, unless it holds what an unlisted address reads as. -/
def Memory.list (font : Vector Byte 80) (a : Nat) (b : Byte) (m : List Host.Cell) : List Host.Cell :=
  if b = Memory.unlisted font a then m else (a, b) :: m

/-- `M[a] <- b`, keeping the cells rising and none of them redundant (R52). -/
def Memory.write (font : Vector Byte 80) : List Host.Cell → Nat → Byte → List Host.Cell
  | [], a, b => Memory.list font a b []
  | c :: m, a, b =>
    if a < c.1 then Memory.list font a b (c :: m)
    else if a = c.1 then Memory.list font a b m
    else c :: Memory.write font m a b

/-- The canonical form: rising addresses inside the address space, none of them holding its unlisted value. -/
abbrev Memory.wf (font : Vector Byte 80) (m : List Host.Cell) : Prop :=
  m.Pairwise (fun c d => c.1 < d.1) ∧ ∀ c ∈ m, c.1 < memSize ∧ c.2 ≠ Memory.unlisted font c.1

/-- M[a] in a state. -/
def State.readByte (s : State) (a : Nat) : Byte := Memory.read s.params.font s.mem a

/-- `M[a] <- b` in a state. Instructions call it only after `checkAccess` has passed (R57). -/
def State.writeByte (s : State) (a : Nat) (b : Byte) : State :=
  { s with mem := Memory.write s.params.font s.mem a b }

/-- Write bytes to rising addresses from a. -/
def State.writeBytes (s : State) (a : Nat) : List Byte → State
  | [] => s
  | b :: bs => (s.writeByte a b).writeBytes (a + 1) bs

/-- The count bytes from a, in address order. -/
def State.readBytes (s : State) (a count : Nat) : List Byte :=
  (List.range count).map fun k => s.readByte (a + k)

/-! ## Faults (R119–R125) -/

/-- What raises a fault: its code and the info R120 records with it. -/
structure Raised where
  code : Fault
  info : Option Nat
deriving DecidableEq, Repr

/-- The number of a fault code (R120). -/
def Fault.number : Fault → Nat
  | .fetchRange     => 1
  | .memRange       => 2
  | .fontWrite      => 3
  | .stackUnderflow => 4
  | .stackOverflow  => 5
  | .keyRange       => 6
  | .indexOverflow  => 7

/-- The addresses base … base + count − 1, rising, as exact integers (R50). -/
def addresses (base count : Nat) : List Nat := List.range' base count

/-- `CheckAccess` of R57: the fault of an access to count bytes from base, if any. MEM_RANGE is tested over every
address before FONT_WRITE over every address, and the lowest offending address is recorded (R123). -/
def checkAccess (base count : Nat) (isWrite : Bool) : Option Raised :=
  match (addresses base count).find? (fun a => decide (memSize ≤ a)) with
  | some a => some ⟨.memRange, some a⟩
  | none =>
    if isWrite then
      ((addresses base count).find? (fun a => decide (a < fontSize))).map fun a => ⟨.fontWrite, some a⟩
    else none

/-- Taking a fault (R121, R122): the latch records it, and nothing else of the state before the step changes. -/
def State.takeFault (s : State) (word : Option Word) (r : Raised) : State :=
  { s with fault := some { code := r.code, pc0 := s.pc, word := word, info := r.info } }

/-! ## The step's frame (R75, R76) -/

/-- The fetch's advance of pc, made before the instruction executes (R75, R154). -/
def State.advance (s : State) : State := { s with pc := s.pc + 2 }

/-- A completed step appends its pc0 to the report (R75). -/
def State.report (s : State) (pc0 : Word) : State := { s with executed := s.executed ++ [pc0] }

/-- The state a step leaves when it completes: pc advanced, the instruction's effect, pc0 reported (R75, R76). -/
def State.retired (s : State) (effect : State → State) : State := (effect s.advance).report s.pc

/-- A step of an instruction that cannot fault: it completes. -/
def State.retire (s : State) (effect : State → State) : Host.Outcome State Fault Refusal :=
  .next (s.retired effect)

/-- A step of an instruction that checks first: on a fault no write takes effect, otherwise it completes (R76, R122). -/
def State.attempt (s : State) (i : Instr) (check : Option Raised) (effect : State → State) :
    Host.Outcome State Fault Refusal :=
  match check with
  | some r => .next (s.takeFault (some (encode i)) r)
  | none => s.retire effect

/-- `Fetch(pc0)` of R53: the word at pc, high byte first, or the fault FETCH_RANGE. -/
def State.fetch (s : State) : Except Raised Word :=
  if memSize ≤ s.pc.toNat + 1 then .error ⟨.fetchRange, some s.pc.toNat⟩
  else .ok (wordOfBytes (s.readByte s.pc.toNat) (s.readByte (s.pc.toNat + 1)))

/-! ## Registers, pc, stack (R25–R30) -/

/-- V[x] (R20). -/
def State.getV (s : State) (x : Reg) : Byte := s.v[x]

/-- `V[x] <- b` (R20). -/
def State.setV (s : State) (x : Reg) (b : Byte) : State := { s with v := s.v.set x b }

/-- `I <- w`. -/
def State.setI (s : State) (w : Word) : State := { s with i := w }

/-- `pc <- target`: pc is never range-checked when written (R29). -/
def State.jump (s : State) (target : Word) : State := { s with pc := target }

/-- `Skip()` of R83, on the pc the fetch has advanced. -/
def State.skip (s : State) : State := { s with pc := s.pc + 2 }

/-- Skip the next instruction if the condition holds. -/
def State.skipIf (s : State) (c : Bool) : State := if c then s.skip else s

/-- `push(a)` (R30). -/
def State.push (s : State) (a : Word) : State := { s with stack := s.stack ++ [a] }

/-- `pc <- pop()` (R30, R80): pc takes the most recently pushed address and the stack loses it. R80 tests first that
there is one. -/
def State.popPc (s : State) : State :=
  match s.stack.getLast? with
  | some a => { s with pc := a, stack := s.stack.dropLast }
  | none => s

/-! ## Framebuffer (R36, R108, R109) -/

/-- Whether the pixel at row r and column c is set (R36). -/
def State.pixel (s : State) (r c : Nat) : Bool := s.fb.contains (r * s.params.fbWidth + c)

/-- XOR one pixel, given by its row-major index, in a rising list of set pixels. -/
def Framebuffer.flip (p : Nat) : List Nat → List Nat
  | [] => [p]
  | q :: qs => if p < q then p :: q :: qs else if p = q then qs else q :: Framebuffer.flip p qs

/-- A framebuffer of the given size: rising indexes inside the grid. -/
abbrev Framebuffer.wf (width height : Nat) (fb : List Nat) : Prop :=
  fb.Pairwise (· < ·) ∧ ∀ p ∈ fb, p < width * height

/-- The row-major index of the pixel that column col of row row of a sprite at (x0, y0) falls on, both axes wrapping (R109). -/
def spritePixel (width height x0 y0 row col : Nat) : Nat :=
  (y0 + row) % height * width + (x0 + col) % width

/-- The pixels one sprite row flips, columns rising; column 0 is the byte's bit 7 (R109). -/
def spriteRow (width height x0 y0 row : Nat) (b : Byte) : List Nat :=
  ((List.range 8).filter fun col => b.getLsbD (7 - col)).map (spritePixel width height x0 y0 row)

/-- The pixels a sprite flips, rows and then columns rising, from the row number given on (R109). -/
def spritePixels (width height x0 y0 : Nat) : Nat → List Byte → List Nat
  | _, [] => []
  | row, b :: bs => spriteRow width height x0 y0 row b ++ spritePixels width height x0 y0 (row + 1) bs

/-- Flip pixels one after the other. The flag becomes true at the first flip of a set pixel (R109). -/
def Framebuffer.blit : List Nat → List Nat → Bool → List Nat × Bool
  | [], fb, coll => (fb, coll)
  | p :: ps, fb, coll => Framebuffer.blit ps (Framebuffer.flip p fb) (coll || fb.contains p)

/-- `DrawSprite(x0, y0, bytes)` of R109: the new framebuffer, the dirty signal, and the collision flag. -/
def State.drawSprite (s : State) (x0 y0 : Nat) (bytes : List Byte) : State × Bool :=
  let drawn := Framebuffer.blit (spritePixels s.params.fbWidth s.params.fbHeight x0 y0 0 bytes) s.fb false
  ({ s with fb := drawn.1, dirty := true }, drawn.2)

/-- `Clear()` of R108. -/
def State.clearScreen (s : State) : State := { s with fb := [], dirty := true }

/-! ## Keypad and RandByte (R33, R134) -/

/-- `isPressed(k)` for a key code k (R33). -/
def State.isPressed (s : State) (k : Nat) : Bool := if h : k < 16 then s.keys[k] else false

/-- The answer to the next draw of RandByte (R13). -/
def State.randByte (s : State) : Byte := Config.randByte s.draws

/-- One draw has been taken. -/
def State.drawn (s : State) : State := { s with draws := s.draws + 1 }

end Sys2Proof.Machine
end

