-- ==== Sys2Proof/Machine/Flags.lean ====
section
/-! DEFINITION. The values VF takes as a flag (R26, R89), and the results that go with them. -/

namespace Sys2Proof.Machine

/-- `bit(b)` as a register value (R19). -/
def bit (b : Bool) : Byte := if b then 1 else 0

/-- The exact sum of two bytes (R96). -/
def exactSum (a b : Byte) : Nat := a.toNat + b.toNat

/-- The carry out of bit 7: the exact sum is above 255 (R96). -/
def carry (a b : Byte) : Bool := decide (255 < exactSum a b)

/-- NOT borrow of a − b: not (a < b) (R97, R99). -/
def notBorrow (a b : Byte) : Bool := !decide (a.toNat < b.toNat)

/-- `(a − b) mod 256` (R97, R99). -/
def difference (a b : Byte) : Byte := BitVec.ofInt 8 ((a.toNat : Int) - (b.toNat : Int))

/-- The bit a right shift by one moves out: bit 0 (R98). -/
def shiftedOutRight (a : Byte) : Bool := a.getLsbD 0

/-- The bit a left shift by one moves out: bit 7 (R100). -/
def shiftedOutLeft (a : Byte) : Bool := a.getLsbD 7

/-- Write VF as a flag (R26). -/
def State.setFlag (s : State) (b : Bool) : State := s.setV VF (bit b)

end Sys2Proof.Machine
end

