-- ==== Sys2Proof/Machine/Operands.lean ====
section
/-! DEFINITION. The operand forms (R64, R65): address immediates, memory addresses through I, the register range of Fx55
and Fx65, and the values computed from a register alone. -/

namespace Sys2Proof.Machine

/-- `zext_16(nnn)` (R65). -/
def addrWord (nnn : Addr) : Word := nnn.setWidth 16

/-- The address I as an exact integer, from which Dxyn, Fx33, Fx55 and Fx65 count (R50). -/
def State.dataBase (s : State) : Nat := s.i.toNat

/-- The registers V[0] … V[x], rising: the range of Fx55 and Fx65, inclusive (R106, R107). -/
def regsUpTo (x : Reg) : List Reg := (List.finRange 16).filter (· ≤ x)

/-- The values of V[0] … V[x] (R106). -/
def State.regBytes (s : State) (x : Reg) : List Byte := (regsUpTo x).map s.getV

/-- Load V[k] from M[base + k] for the registers given, in order (R107). -/
def State.loadRegs (s : State) (base : Nat) : List Reg → State
  | [] => s
  | k :: ks => (s.setV k (s.readByte (base + k))).loadRegs base ks

/-- The decimal digits of a byte, hundreds first (R105). -/
def decimalDigits (b : Byte) : List Byte :=
  [BitVec.ofNat 8 (b.toNat / 100), BitVec.ofNat 8 (b.toNat / 10 % 10), BitVec.ofNat 8 (b.toNat % 10)]

/-- `V[x] * 5`, the glyph base, at most 1275 (R104). -/
def glyphBase (b : Byte) : Word := BitVec.ofNat 16 (b.toNat * 5)

/-- `I + V[x]` as an exact integer (R103). -/
def State.indexSum (s : State) (x : Reg) : Nat := s.i.toNat + (s.getV x).toNat

end Sys2Proof.Machine
end

