-- ==== Sys2Proof/Machine/Alu.lean ====
section
/-! DEFINITION. Register loads and the ALU (R89–R101). Statements run in the order written (R21): where VF is written
first, the later reads see it. -/

namespace Sys2Proof.Machine

/-- LD Vx, nn (R90). -/
def execLdImm (x : Reg) (nn : Byte) (s : State) : Host.Outcome State Fault Refusal :=
  s.retire fun t => t.setV x nn

/-- ADD Vx, nn (R91): modulo 256, VF is no carry. -/
def execAddImm (x : Reg) (nn : Byte) (s : State) : Host.Outcome State Fault Refusal :=
  s.retire fun t => t.setV x (BitVec.ofNat 8 (exactSum (t.getV x) nn))

/-- LD Vx, Vy (R92). -/
def execLdReg (x y : Reg) (s : State) : Host.Outcome State Fault Refusal :=
  s.retire fun t => t.setV x (t.getV y)

/-- OR Vx, Vy (R93): VF is no flag here. -/
def execOr (x y : Reg) (s : State) : Host.Outcome State Fault Refusal :=
  s.retire fun t => t.setV x (t.getV x ||| t.getV y)

/-- AND Vx, Vy (R94): VF is no flag here. -/
def execAnd (x y : Reg) (s : State) : Host.Outcome State Fault Refusal :=
  s.retire fun t => t.setV x (t.getV x &&& t.getV y)

/-- XOR Vx, Vy (R95): VF is no flag here. -/
def execXor (x y : Reg) (s : State) : Host.Outcome State Fault Refusal :=
  s.retire fun t => t.setV x (t.getV x ^^^ t.getV y)

/-- The effect of ADD Vx, Vy (R96): the sum is taken before any write, then VF, then V[x]. -/
def addRegEffect (x y : Reg) (t : State) : State :=
  let a := t.getV x
  let b := t.getV y
  (t.setFlag (carry a b)).setV x (BitVec.ofNat 8 (exactSum a b))

/-- ADD Vx, Vy (R96). -/
def execAddReg (x y : Reg) (s : State) : Host.Outcome State Fault Refusal :=
  s.retire (addRegEffect x y)

/-- The effect of SUB Vx, Vy (R97): VF first; the subtraction reads V after that write. -/
def subEffect (x y : Reg) (t : State) : State :=
  let u := t.setFlag (notBorrow (t.getV x) (t.getV y))
  u.setV x (difference (u.getV x) (u.getV y))

/-- SUB Vx, Vy (R97). -/
def execSub (x y : Reg) (s : State) : Host.Outcome State Fault Refusal :=
  s.retire (subEffect x y)

/-- The effect of SHR Vx, Vy (R98): V[y] is never read; the shift reads V[x] after the VF write. -/
def shrEffect (x : Reg) (t : State) : State :=
  let u := t.setFlag (shiftedOutRight (t.getV x))
  u.setV x (u.getV x >>> 1)

/-- SHR Vx, Vy (R98). -/
def execShr (x _y : Reg) (s : State) : Host.Outcome State Fault Refusal :=
  s.retire (shrEffect x)

/-- The effect of SUBN Vx, Vy (R99): VF first; the subtraction reads V after that write. -/
def subnEffect (x y : Reg) (t : State) : State :=
  let u := t.setFlag (notBorrow (t.getV y) (t.getV x))
  u.setV x (difference (u.getV y) (u.getV x))

/-- SUBN Vx, Vy (R99). -/
def execSubn (x y : Reg) (s : State) : Host.Outcome State Fault Refusal :=
  s.retire (subnEffect x y)

/-- The effect of SHL Vx, Vy (R100): V[y] is never read; the shift reads V[x] after the VF write. -/
def shlEffect (x : Reg) (t : State) : State :=
  let u := t.setFlag (shiftedOutLeft (t.getV x))
  u.setV x (u.getV x <<< 1)

/-- SHL Vx, Vy (R100). -/
def execShl (x _y : Reg) (s : State) : Host.Outcome State Fault Refusal :=
  s.retire (shlEffect x)

/-- RND Vx, nn (R101): one fresh draw, masked. -/
def execRnd (x : Reg) (nn : Byte) (s : State) : Host.Outcome State Fault Refusal :=
  s.retire fun t => (t.setV x (t.randByte &&& nn)).drawn

end Sys2Proof.Machine
end

