-- ==== Sys2Proof/Machine/ControlFlow.lean ====
section
/-! DEFINITION. Control transfer and the no-op (R79–R88). Each effect starts from the state whose pc is already pc0 + 2. -/

namespace Sys2Proof.Machine

/-- NOP (R79): no effect; pc stays at pc0 + 2. -/
def execNop (_w : Word) (s : State) : Host.Outcome State Fault Refusal :=
  s.retire fun t => t

/-- The check of 00EE (R80): STACK_UNDERFLOW on an empty stack. -/
def retCheck (s : State) : Option Raised :=
  if s.stack.isEmpty then some ⟨.stackUnderflow, none⟩ else none

/-- RET (R80): `pc <- pop()`. -/
def execRet (s : State) : Host.Outcome State Fault Refusal :=
  s.attempt .ret (retCheck s) State.popPc

/-- JP nnn (R81). -/
def execJp (nnn : Addr) (s : State) : Host.Outcome State Fault Refusal :=
  s.retire fun t => t.jump (addrWord nnn)

/-- The check of 2nnn (R82): STACK_OVERFLOW when the stack holds a finite STACK_LIMIT of addresses. -/
def callCheck (s : State) : Option Raised :=
  match s.params.stackLimit with
  | some limit => if s.stack.length = limit then some ⟨.stackOverflow, none⟩ else none
  | none => none

/-- CALL nnn (R82): push the advanced pc, then jump. -/
def execCall (nnn : Addr) (s : State) : Host.Outcome State Fault Refusal :=
  s.attempt (.call nnn) (callCheck s) fun t => (t.push t.pc).jump (addrWord nnn)

/-- SE Vx, nn (R84). -/
def execSeImm (x : Reg) (nn : Byte) (s : State) : Host.Outcome State Fault Refusal :=
  s.retire fun t => t.skipIf (t.getV x == nn)

/-- SNE Vx, nn (R85). -/
def execSneImm (x : Reg) (nn : Byte) (s : State) : Host.Outcome State Fault Refusal :=
  s.retire fun t => t.skipIf (t.getV x != nn)

/-- SE Vx, Vy (R86). -/
def execSeReg (x y : Reg) (s : State) : Host.Outcome State Fault Refusal :=
  s.retire fun t => t.skipIf (t.getV x == t.getV y)

/-- SNE Vx, Vy (R87). -/
def execSneReg (x y : Reg) (s : State) : Host.Outcome State Fault Refusal :=
  s.retire fun t => t.skipIf (t.getV x != t.getV y)

/-- JP V0, nnn (R88): `pc <- zext_16(nnn) + V[0]`, never truncated to 12 bits. -/
def execJpV0 (nnn : Addr) (s : State) : Host.Outcome State Fault Refusal :=
  s.retire fun t => t.jump (addrWord nnn + (t.getV 0).setWidth 16)

end Sys2Proof.Machine
end

