-- ==== Sys2Proof/Machine/Display.lean ====
section
/-! DEFINITION. The display instructions (R108–R112). -/

namespace Sys2Proof.Machine

/-- CLS (R110): VF is unchanged. -/
def execCls (s : State) : Host.Outcome State Fault Refusal :=
  s.retire State.clearScreen

/-- The effect of DRW Vx, Vy, n (R111): the coordinates and the n bytes are read first, then the sprite is drawn, then VF
takes the collision flag. -/
def drwEffect (x y : Reg) (n : Fin 16) (t : State) : State :=
  let drawn := t.drawSprite (t.getV x).toNat (t.getV y).toNat (t.readBytes t.dataBase n)
  drawn.1.setFlag drawn.2

/-- DRW Vx, Vy, n (R111): n = 0 reads and draws nothing. -/
def execDrw (x y : Reg) (n : Fin 16) (s : State) : Host.Outcome State Fault Refusal :=
  s.attempt (.drw x y n) (checkAccess s.dataBase n false) (drwEffect x y n)

end Sys2Proof.Machine
end

