-- ==== Sys2Proof/Machine/IndexMemory.lean ====
section
/-! DEFINITION. The index register and memory transfer (R102–R107). Every address is checked before any access (R57), and
I stays unchanged in the three transfers. -/

namespace Sys2Proof.Machine

/-- LD I, nnn (R102). -/
def execLdI (nnn : Addr) (s : State) : Host.Outcome State Fault Refusal :=
  s.retire fun t => t.setI (addrWord nnn)

/-- The check of Fx1E (R103): INDEX_OVERFLOW when the exact sum does not fit 16 bits. -/
def addICheck (x : Reg) (s : State) : Option Raised :=
  if 0xFFFF < s.indexSum x then some ⟨.indexOverflow, some (s.indexSum x)⟩ else none

/-- ADD I, Vx (R103): VF is not written. -/
def execAddI (x : Reg) (s : State) : Host.Outcome State Fault Refusal :=
  s.attempt (.addI x) (addICheck x s) fun t => t.setI (BitVec.ofNat 16 (t.indexSum x))

/-- LD F, Vx (R104): the whole register is multiplied, not its low nibble. -/
def execLdF (x : Reg) (s : State) : Host.Outcome State Fault Refusal :=
  s.retire fun t => t.setI (glyphBase (t.getV x))

/-- LD B, Vx (R105): three decimal digits at I, I + 1, I + 2. -/
def execLdB (x : Reg) (s : State) : Host.Outcome State Fault Refusal :=
  s.attempt (.ldB x) (checkAccess s.dataBase 3 true) fun t => t.writeBytes t.dataBase (decimalDigits (t.getV x))

/-- LD [I], Vx (R106): V[0] … V[x] to I … I + x. -/
def execLdMemVx (x : Reg) (s : State) : Host.Outcome State Fault Refusal :=
  s.attempt (.ldMemVx x) (checkAccess s.dataBase (x + 1) true) fun t => t.writeBytes t.dataBase (t.regBytes x)

/-- LD Vx, [I] (R107): V[0] … V[x] from I … I + x. -/
def execLdVxMem (x : Reg) (s : State) : Host.Outcome State Fault Refusal :=
  s.attempt (.ldVxMem x) (checkAccess s.dataBase (x + 1) false) fun t => t.loadRegs t.dataBase (regsUpTo x)

end Sys2Proof.Machine
end

