-- ==== Sys2Proof/Machine/TimersKeypad.lean ====
section
/-! DEFINITION. The keypad and timer instructions (R113–R118). -/

namespace Sys2Proof.Machine

/-- The check of Ex9E and ExA1 (R113, R114): KEY_RANGE when the register holds no key code. -/
def keyCheck (x : Reg) (s : State) : Option Raised :=
  if 0xF < (s.getV x).toNat then some ⟨.keyRange, some (s.getV x).toNat⟩ else none

/-- SKP Vx (R113). -/
def execSkp (x : Reg) (s : State) : Host.Outcome State Fault Refusal :=
  s.attempt (.skp x) (keyCheck x s) fun t => t.skipIf (t.isPressed (t.getV x).toNat)

/-- SKNP Vx (R114). -/
def execSknp (x : Reg) (s : State) : Host.Outcome State Fault Refusal :=
  s.attempt (.sknp x) (keyCheck x s) fun t => t.skipIf (!t.isPressed (t.getV x).toNat)

/-- LD Vx, DT (R115). -/
def execLdVxDt (x : Reg) (s : State) : Host.Outcome State Fault Refusal :=
  s.retire fun t => t.setV x t.dt

/-- LD Vx, K (R116): the engine is held until a key press writes V[x] (R131). -/
def execLdVxK (x : Reg) (s : State) : Host.Outcome State Fault Refusal :=
  s.retire fun t => { t with mode := .awaitingKey x }

/-- LD DT, Vx (R117). -/
def execLdDtVx (x : Reg) (s : State) : Host.Outcome State Fault Refusal :=
  s.retire fun t => { t with dt := t.getV x }

/-- LD ST, Vx (R118): no beep, whatever is written. -/
def execLdStVx (x : Reg) (s : State) : Host.Outcome State Fault Refusal :=
  s.retire fun t => { t with st := t.getV x }

end Sys2Proof.Machine
end

