-- ==== Sys2Proof/Machine/Engine.lean ====
section
/-! DEFINITION. The engine's step (R74, R75) and the conditions a run is observed in (R151, R152). -/

namespace Sys2Proof.Machine

/-- A step is enabled exactly when nothing is faulted and the engine is not held (R74). -/
def State.stepEnabled (s : State) : Bool := s.fault.isNone && s.mode == .running

/-- `Step()`: fetch, advance, decode, execute one instruction (R75). A halted or held engine makes no step and no state
changes (R74, R124; log 2). -/
def engineStep (s : State) : Host.Outcome State Fault Refusal :=
  if s.stepEnabled then
    match s.fetch with
    | .ok w => exec (decode w) s
    | .error r => .next (s.takeFault none r)
  else .next s

/-- The state with a word stored where the next step fetches: at pc, or at 0x200 where no fetch from pc is possible. The
engine is made able to step: no fault, not held, and a tick begun whose first step comes next (log 13). -/
def State.placeWord (s : State) (w : Word) : State :=
  let pc0 := if s.pc.toNat + 1 < Config.memSize then s.pc else BitVec.ofNat 16 Config.programBase
  { s with pc := pc0, fault := none, mode := .running, phase := .stepping 0 }.writeBytes pc0.toNat [highByte w, lowByte w]

/-- The four conditions of R151. -/
inductive Condition where
  | faulted
  | held
  | parked
  | running
deriving DecidableEq, Repr

/-- Parked: the word at pc is 1nnn with nnn = pc (R151, R152). -/
def State.isParked (s : State) : Bool :=
  match s.fetch with
  | .ok w => decode w == .jp (s.pc.setWidth 12)
  | .error _ => false

/-- The condition a state is observed in (R151). -/
def State.condition (s : State) : Condition :=
  if s.fault.isSome then .faulted
  else if s.mode != .running then .held
  else if s.isParked then .parked
  else .running

/-- The index the host computes from a reported pc0: whole only for even pc0 from 0x200 on (R77, R141). -/
def instructionIndex (pc0 : Word) : Option Nat :=
  if Config.programBase ≤ pc0.toNat ∧ pc0.toNat % 2 = 0 then some ((pc0.toNat - Config.programBase) / 2) else none

end Sys2Proof.Machine
end

