-- ==== Sys2Proof/Machine/Scheduler.lean ====
section
/-! DEFINITION. The timers and the Scheduler: the tick of R136, whole and as the moves a tick in progress makes. -/

namespace Sys2Proof.Machine

/-- An output event is emitted (R129, R133; log 12). -/
def State.emit (s : State) (o : Output) : State := { s with outputs := s.outputs ++ [o] }

/-- A timer counts down by one and saturates at zero (R31, R32, R128). -/
def countDown (t : Byte) : Byte := if 0 < t.toNat then t - 1 else 0

/-- `TimerDecay()` of R128. The beep is emitted exactly when ST goes from 1 to 0 (R129). -/
def State.timerDecay (s : State) : State :=
  let t := { s with dt := countDown s.dt, st := countDown s.st }
  if 0 < s.st.toNat ∧ (countDown s.st).toNat = 0 then t.emit .beep else t

/-- What the frame output presents (R133, R141). -/
def State.frameReport (s : State) : FrameReport where
  width    := s.params.fbWidth
  height   := s.params.fbHeight
  fb       := s.fb
  dirty    := s.dirty
  executed := s.executed
  v        := s.v
  i        := s.i
  pc       := s.pc

/-- The frame output, after which the dirty signal is cleared (R133, R136). -/
def State.presentFrame (s : State) : State :=
  { s.emit (.frameComplete s.frameReport) with dirty := false }

/-- The end of a tick that ran: one decay, then the frame output (R136). -/
def State.finishTick (s : State) : State := s.timerDecay.presentFrame

/-- The start of a tick: the report is cleared (R136, R39). -/
def State.clearReport (s : State) : State := { s with executed := [] }

/-! ## The tick, whole (R136) -/

/-- The while loop of R136, with the steps still allowed: it ends at the budget, at a hold, or at a fault. -/
def tickLoop : Nat → State → Host.Outcome State Fault Refusal
  | 0, s => .next s
  | left + 1, s =>
    if s.stepEnabled then
      match engineStep s with
      | .next t => tickLoop left t
      | .fault f => .fault f
      | .refused r => .refused r
    else .next s

/-- `Tick()` of R136 with no key event inside it. A faulted block does nothing; a fault in the tick ends it with no decay
and no frame output (R124). -/
def tick (s : State) : Host.Outcome State Fault Refusal :=
  if s.fault.isSome then .next s
  else
    match tickLoop s.cyclesPerTick s.clearReport with
    | .next t => .next (if t.fault.isSome then t else t.finishTick)
    | .fault f => .fault f
    | .refused r => .refused r

/-! ## The tick, move by move, so that a key event may come between two steps (R138; log 9) -/

/-- The move a tick makes next after this many steps: a hold or the budget ends its steps for good (R136, R137). -/
def nextPhase (done : Nat) (s : State) : Phase :=
  if s.mode == .running && decide (done < s.cyclesPerTick) then .stepping done else .finishing

/-- A tick begins. A faulted block does nothing (R124). -/
def State.beginTick (s : State) : State :=
  if s.fault.isSome then s
  else { s.clearReport with phase := nextPhase 0 s }

/-- After a step of a tick: a fault ends the tick at once (R124, R136). -/
def State.afterStep (done : Nat) (s : State) : State :=
  { s with phase := if s.fault.isSome then .between else nextPhase (done + 1) s }

/-- The next move of the tick in progress: a step of the engine, or the end of the tick. With no tick in progress there is
none, and nothing changes (R145). -/
def tickMove (s : State) : Host.Outcome State Fault Refusal :=
  match s.phase with
  | .between => .next s
  | .stepping done =>
    match engineStep s with
    | .next t => .next (t.afterStep done)
    | .fault f => .fault f
    | .refused r => .refused r
  | .finishing => .next { s.finishTick with phase := .between }

/-- The block's next move: the one of the tick in progress; or, between ticks, the first one of the tick that a playing host
issues, and nothing while the host is paused (R140, R145; log 8). -/
def schedulerStep (s : State) : Host.Outcome State Fault Refusal :=
  if s.phase = .between ∧ s.playing then tickMove s.beginTick else tickMove s

end Sys2Proof.Machine
end

