-- ==== Sys2Proof/Machine/HostEvents.lean ====
section
/-! DEFINITION. The host interface (R138–R142): the events the block receives and what each does. -/

namespace Sys2Proof.Machine

open Sys2Proof.Config

/-- `Reset()` of R146: every item of R42 at its reset value. The cycle budget and the parameters stay; so do the model's
own records of draws taken, outputs emitted, and the host's playing (log 8, log 12). -/
def State.resetBlock (s : State) : State :=
  { State.reset with
    cyclesPerTick := s.cyclesPerTick, params := s.params, draws := s.draws, outputs := s.outputs, playing := s.playing }

/-- `Load(bytes)` of R148: a reset, then the image from 0x200 on. -/
def State.loadImage (s : State) (bytes : List Byte) : State := s.resetBlock.writeBytes programBase bytes

/-- `SetKey(k, p)` of R131: any press resumes a held engine; it runs no step. -/
def State.setKey (s : State) (k : Fin 16) (pressed : Bool) : State :=
  let t := { s with keys := s.keys.set k pressed }
  if pressed then
    match t.mode with
    | .awaitingKey d => { t.setV d (BitVec.ofNat 8 k) with mode := .running }
    | .running => t
  else t

/-- `stepOnce()` of R139 with the parameter STEP_ONCE_TICKS_TIMERS given. A held or faulted engine does nothing. The
report holds the one step; a step that faults leaves the latch set and presents nothing (log 11). -/
def stepOnceWith (decays : Bool) (s : State) : Host.Outcome State Fault Refusal :=
  if s.stepEnabled then
    match engineStep s.clearReport with
    | .next t =>
      .next (if t.fault.isSome then t else (if decays then t.timerDecay else t).presentFrame)
    | .fault f => .fault f
    | .refused r => .refused r
  else .next s

/-- `stepOnce()` of R139; the parameter is OPEN (R15, log 6). -/
def stepOnce (s : State) : Host.Outcome State Fault Refusal := stepOnceWith stepOnceTicksTimers s

/-- The events of R142, and the play and pause of R140: from play to pause the host issues ticks. stop is a pause, and replay
is a load of the last image (R140). -/
inductive HostEvent where
  | reset
  | load (bytes : List Byte)
  | tick
  | stepOnce
  | setKey (code : Nat) (pressed : Bool)
  | setCyclesPerTick (n : Nat)
  | play
  | pause
deriving DecidableEq, Repr

/-- An event that may come only between ticks (R138, R142; log 10). -/
def State.betweenTicks (s : State) (next : Host.Outcome State Fault Refusal) : Host.Outcome State Fault Refusal :=
  if s.phase = .between then next else .refused .tickInProgress

/-- What the block does with an event. A tick event begins a tick, whose moves `step` then makes. play and pause change no
state of the block, but whether a tick follows when none is in progress; a tick in progress goes on (log 8). -/
def State.handle (e : HostEvent) (s : State) : Host.Outcome State Fault Refusal :=
  match e with
  | .reset => s.betweenTicks (.next s.resetBlock)
  | .load bytes =>
    s.betweenTicks (if bytes.length ≤ maxImage then .next (s.loadImage bytes) else .refused .imageTooLong)
  | .tick => s.betweenTicks (.next s.beginTick)
  | .stepOnce => s.betweenTicks (Sys2Proof.Machine.stepOnce s)
  | .setKey code pressed =>
    if h : code < 16 then .next (s.setKey ⟨code, h⟩ pressed) else .refused .keyCodeOutOfRange
  | .setCyclesPerTick n =>
    s.betweenTicks
      (if minCycles ≤ n ∧ n ≤ maxCycles then .next { s with cyclesPerTick := n } else .refused .cyclesOutOfRange)
  | .play => .next { s with playing := true }
  | .pause => .next { s with playing := false }

end Sys2Proof.Machine
end

