-- ==== Sys2Proof/Machine/Step.lean ====
section
/-! DEFINITION. One step of the block, and the placing of an instruction where the next step fetches. -/

namespace Sys2Proof.Machine

/-- One move of the block: the next one of the tick in progress, or of the tick a playing host issues (R136, R140; log 8,
log 9). A block whose host is paused does not move between ticks (R145). -/
def step (s : State) : Host.Outcome State Fault Refusal := schedulerStep s

/-- The state with an instruction word of the opcode table stored where the next step fetches (log 13). -/
def State.withFetchWord (s : State) (nbits w : Nat) : State :=
  s.placeWord (tableWord nbits w)

end Sys2Proof.Machine
end

