-- ==== Sys2Proof/Machine/Assembler.lean ====
section
/-! DEFINITION. The assembler notation of R73, on operand words already read: a mnemonic with its operands to the word it
stands for, and the listing of an instruction. Notation only: the encodings are normative (R73, log 17). -/

namespace Sys2Proof.Machine

/-- An operand word of R73. A label is the number of its address. -/
inductive Token where
  | reg (r : Reg)
  | num (n : Nat)
  /-- `I`, `DT`, `ST`, `K`, `F`, `B`, `[I]` -/
  | i | dt | st | k | f | b | atI
deriving DecidableEq, Repr

/-- A number as a field of w bits; the assembler refuses one that does not fit (R73). -/
def fitted (w n : Nat) : Option (BitVec w) := if n < 2 ^ w then some (BitVec.ofNat w n) else none

/-- The forms of LD, in the order of R67. -/
def assembleLd : List Token → Option Word
  | [.reg x, .num n] => (fitted 8 n).map fun nn => encode (.ldImm x nn)
  | [.reg x, .reg y] => some (encode (.ldReg x y))
  | [.i, .num n]     => (fitted 12 n).map fun nnn => encode (.ldI nnn)
  | [.reg x, .dt]    => some (encode (.ldVxDt x))
  | [.reg x, .k]     => some (encode (.ldVxK x))
  | [.dt, .reg x]    => some (encode (.ldDtVx x))
  | [.st, .reg x]    => some (encode (.ldStVx x))
  | [.f, .reg x]     => some (encode (.ldF x))
  | [.b, .reg x]     => some (encode (.ldB x))
  | [.atI, .reg x]   => some (encode (.ldMemVx x))
  | [.reg x, .atI]   => some (encode (.ldVxMem x))
  | _ => none

/-- The forms of ADD. -/
def assembleAdd : List Token → Option Word
  | [.reg x, .num n] => (fitted 8 n).map fun nn => encode (.addImm x nn)
  | [.reg x, .reg y] => some (encode (.addReg x y))
  | [.i, .reg x]     => some (encode (.addI x))
  | _ => none

/-- The forms of JP; the register of an indexed jump is V0. -/
def assembleJp : List Token → Option Word
  | [.num n]         => (fitted 12 n).map fun nnn => encode (.jp nnn)
  | [.reg r, .num n] => if r = 0 then (fitted 12 n).map fun nnn => encode (.jpV0 nnn) else none
  | _ => none

/-- A skip's two forms. -/
def assembleSkip (imm : Reg → Byte → Instr) (reg : Reg → Reg → Instr) : List Token → Option Word
  | [.reg x, .num n] => (fitted 8 n).map fun nn => encode (imm x nn)
  | [.reg x, .reg y] => some (encode (reg x y))
  | _ => none

/-- An instruction of two registers. -/
def assembleXY (instr : Reg → Reg → Instr) : List Token → Option Word
  | [.reg x, .reg y] => some (encode (instr x y))
  | _ => none

/-- A shift: with one register, y is 0 (R73). -/
def assembleShift (instr : Reg → Reg → Instr) : List Token → Option Word
  | [.reg x]         => some (encode (instr x 0))
  | [.reg x, .reg y] => some (encode (instr x y))
  | _ => none

/-- The word of an assembled line: a mnemonic of R67 or the directive DW, with its operand words. -/
def assemble (name : String) (ops : List Token) : Option Word :=
  match name with
  | "CLS"  => if ops = [] then some (encode .cls) else none
  | "RET"  => if ops = [] then some (encode .ret) else none
  | "JP"   => assembleJp ops
  | "CALL" => match ops with
    | [.num n] => (fitted 12 n).map fun nnn => encode (.call nnn)
    | _ => none
  | "SE"   => assembleSkip .seImm .seReg ops
  | "SNE"  => assembleSkip .sneImm .sneReg ops
  | "LD"   => assembleLd ops
  | "ADD"  => assembleAdd ops
  | "OR"   => assembleXY .or ops
  | "AND"  => assembleXY .and ops
  | "XOR"  => assembleXY .xor ops
  | "SUB"  => assembleXY .sub ops
  | "SHR"  => assembleShift .shr ops
  | "SUBN" => assembleXY .subn ops
  | "SHL"  => assembleShift .shl ops
  | "RND"  => match ops with
    | [.reg x, .num n] => (fitted 8 n).map fun nn => encode (.rnd x nn)
    | _ => none
  | "DRW"  => match ops with
    | [.reg x, .reg y, .num n] => (fitted 4 n).map fun k => encode (.drw x y k.toFin)
    | _ => none
  | "SKP"  => match ops with
    | [.reg x] => some (encode (.skp x))
    | _ => none
  | "SKNP" => match ops with
    | [.reg x] => some (encode (.sknp x))
    | _ => none
  | "DW"   => match ops with
    | [.num n] => fitted 16 n
    | _ => none
  | _ => none

/-- The listing of an instruction: its mnemonic and operand words (R67, R73). -/
def listing : Instr → String × List Token
  | .cls          => ("CLS", [])
  | .ret          => ("RET", [])
  | .jp nnn       => ("JP", [.num nnn.toNat])
  | .call nnn     => ("CALL", [.num nnn.toNat])
  | .seImm x nn   => ("SE", [.reg x, .num nn.toNat])
  | .sneImm x nn  => ("SNE", [.reg x, .num nn.toNat])
  | .seReg x y    => ("SE", [.reg x, .reg y])
  | .ldImm x nn   => ("LD", [.reg x, .num nn.toNat])
  | .addImm x nn  => ("ADD", [.reg x, .num nn.toNat])
  | .ldReg x y    => ("LD", [.reg x, .reg y])
  | .or x y       => ("OR", [.reg x, .reg y])
  | .and x y      => ("AND", [.reg x, .reg y])
  | .xor x y      => ("XOR", [.reg x, .reg y])
  | .addReg x y   => ("ADD", [.reg x, .reg y])
  | .sub x y      => ("SUB", [.reg x, .reg y])
  | .shr x y      => ("SHR", [.reg x, .reg y])
  | .subn x y     => ("SUBN", [.reg x, .reg y])
  | .shl x y      => ("SHL", [.reg x, .reg y])
  | .sneReg x y   => ("SNE", [.reg x, .reg y])
  | .ldI nnn      => ("LD", [.i, .num nnn.toNat])
  | .jpV0 nnn     => ("JP", [.reg 0, .num nnn.toNat])
  | .rnd x nn     => ("RND", [.reg x, .num nn.toNat])
  | .drw x y n    => ("DRW", [.reg x, .reg y, .num n])
  | .skp x        => ("SKP", [.reg x])
  | .sknp x       => ("SKNP", [.reg x])
  | .ldVxDt x     => ("LD", [.reg x, .dt])
  | .ldVxK x      => ("LD", [.reg x, .k])
  | .ldDtVx x     => ("LD", [.dt, .reg x])
  | .ldStVx x     => ("LD", [.st, .reg x])
  | .addI x       => ("ADD", [.i, .reg x])
  | .ldF x        => ("LD", [.f, .reg x])
  | .ldB x        => ("LD", [.b, .reg x])
  | .ldMemVx x    => ("LD", [.atI, .reg x])
  | .ldVxMem x    => ("LD", [.reg x, .atI])
  | .nop w        => ("DW", [.num w.toNat])

end Sys2Proof.Machine
end

