-- ==== Sys2Proof/Safety.lean ====
section
/-! DEFINITION. What counts as a safe run: the invariant of the block, its moves, the states it reaches, and the frames
the statements use. -/

namespace Sys2Proof.Machine

open Sys2Proof.Config

/-- The invariant of the block: what the spec says of every state, and every move and host event keeps. -/
structure State.Inv (s : State) : Prop where
  /-- W and H are positive (R9) -/
  params_ok : s.params.ok
  /-- memory is in canonical form, inside the address space (R44) -/
  mem_wf : Memory.wf s.params.font s.mem
  /-- no cell lies in the font region, so its bytes are FONT (R45) -/
  font_intact : ∀ c ∈ s.mem, fontSize ≤ c.1
  /-- pc never holds a value above 0x10FE (R29) -/
  pc_le : s.pc.toNat ≤ 0x10FE
  /-- a return address is at most 0x1000 (R80) -/
  stack_le : ∀ a ∈ s.stack, a.toNat ≤ 0x1000
  /-- the stack holds at most STACK_LIMIT addresses (R11) -/
  stack_limit : ∀ n, s.params.stackLimit = some n → s.stack.length ≤ n
  /-- every set pixel lies in the grid and is listed once (R36) -/
  fb_wf : Framebuffer.wf s.params.fbWidth s.params.fbHeight s.fb
  /-- the cycle budget is legal (R10) -/
  cycles_ok : minCycles ≤ s.cyclesPerTick ∧ s.cyclesPerTick ≤ maxCycles
  /-- a faulted block is not held and has no tick in progress (R124) -/
  fault_idle : s.fault ≠ none → s.mode = .running ∧ s.phase = .between
  /-- the latch holds the pc of the faulting instruction, and pc stays there (R121, R122) -/
  fault_pc : ∀ f, s.fault = some f → f.pc0 = s.pc
  /-- the word is absent exactly for FETCH_RANGE (R121) -/
  fault_word : ∀ f, s.fault = some f → (f.word = none ↔ f.code = .fetchRange)
  /-- a tick with steps to come is below its budget and not held (R136) -/
  stepping_ok : ∀ k, s.phase = .stepping k → k < s.cyclesPerTick ∧ s.mode = .running
  /-- every reported pc0 is one a word was fetched from (R53) -/
  executed_le : ∀ a ∈ s.executed, a.toNat ≤ 0xFFE

/-- A move of the whole system: a step of the block or an event of the host (R138). -/
inductive Move where
  | step
  | event (e : HostEvent)
deriving DecidableEq, Repr

/-- What a move does. -/
def State.move (m : Move) (s : State) : Host.Outcome State Fault Refusal :=
  match m with
  | .step => Sys2Proof.Machine.step s
  | .event e => s.handle e

/-- The states the block reaches from power-on with any parameters, by any moves (R43, R147). -/
inductive Reachable : State → Prop where
  | powerOn (p : Params) : p.ok → Reachable { State.reset with params := p }
  | move {s t : State} (m : Move) : Reachable s → s.move m = .next t → Reachable t

/-- A state no claim of correct completion counts: a faulted one (R124). -/
def State.safe (s : State) : Bool := s.fault.isNone

/-- Every byte of memory reads in t as it does in s. -/
def SameBytes (s t : State) : Prop := ∀ a, t.readByte a = s.readByte a

/-- Every byte of memory outside the count bytes from base reads in t as it does in s. -/
def SameBytesOutside (base count : Nat) (s t : State) : Prop :=
  ∀ a, a < base ∨ base + count ≤ a → t.readByte a = s.readByte a

/-- Every V register but the ones listed holds in t what it holds in s. -/
def SameRegsBut (xs : List Reg) (s t : State) : Prop := ∀ r, r ∉ xs → t.getV r = s.getV r

/-- From s to t an instruction completed that writes V registers only, none but the ones listed: pc is at the next
instruction, its address is reported, and all the rest of the state, every byte of memory with it, is as before. -/
def WritesRegs (xs : List Reg) (s t : State) : Prop :=
  t = { s with v := t.v, pc := s.pc + 2, executed := s.executed ++ [s.pc] } ∧ SameRegsBut xs s t ∧ SameBytes s t

/-- From s to t an instruction completed that writes pc only, to the address given: all the rest of the state is as
before, but that its own address is reported. -/
def WritesPc (target : Word) (s t : State) : Prop :=
  t = { s with pc := target, executed := s.executed ++ [s.pc] } ∧ SameRegsBut [] s t ∧ SameBytes s t

/-- From s to t an instruction completed that writes I only. -/
def WritesIndex (s t : State) : Prop :=
  t = { s with i := t.i, pc := s.pc + 2, executed := s.executed ++ [s.pc] } ∧ SameRegsBut [] s t ∧ SameBytes s t

/-- From s to t an instruction completed that writes memory only, inside the count bytes from base. -/
def WritesBytes (base count : Nat) (s t : State) : Prop :=
  t = { s with mem := t.mem, pc := s.pc + 2, executed := s.executed ++ [s.pc] } ∧ SameRegsBut [] s t ∧
  SameBytesOutside base count s t

/-- The state s with the fault of instruction i taken: the latch is all that differs (R121, R122). -/
def State.faultedBy (s : State) (i : Instr) (code : Fault) (info : Option Nat) : State :=
  { s with fault := some { code := code, pc0 := s.pc, word := some (encode i), info := info } }

/-- How often a sprite of n rows drawn by Dxyn hits the pixel at row r and column c: the 1 bits of M[I] … M[I + n − 1]
whose place, wrapped on both axes, is that pixel (R109). -/
def State.spriteHits (s : State) (x y : Reg) (n r c : Nat) : Nat :=
  (List.product (List.range n) (List.range 8)).countP fun p =>
    (s.readByte (s.dataBase + p.1)).getLsbD (7 - p.2) &&
    decide (((s.getV y).toNat + p.1) % s.params.fbHeight = r ∧ ((s.getV x).toNat + p.2) % s.params.fbWidth = c)

/-- The state without what no instruction reads: the dirty signal, the report, ST, and the outputs (R32, R37, R39, R129). -/
def State.visible (s : State) : State := { s with dirty := false, executed := [], st := 0, outputs := [] }

end Sys2Proof.Machine
end

