-- ==== Sys2Proof/Certificates/Slice0/Obligations.lean ====
section
/-! DEFINITION. The statements for the provers. Each docstring names the rules of the spec it formalises. -/

open Sys2Proof Sys2Proof.Machine Sys2Proof.Config

/-! ## Encoding -/

/-- Every well-formed instruction's word decodes to it, with every operand (R64, R66–R68). -/
def Obligations.EncodedInstructionsDecodeBack : Prop :=
  ∀ i : Instr, i.wellFormed = true → decode (encode i) = i

/-- Every word decodes to a well-formed instruction, whose word it is (R67, R71). -/
def Obligations.DecodedWordsEncodeBack : Prop :=
  ∀ w : Word, (decode w).wellFormed = true ∧ encode (decode w) = w

/-- No word selects two rows of the opcode map, and decoding follows the row a word selects (R67, R68). -/
def Obligations.OpcodeRowsAreDisjoint : Prop :=
  ∀ w : Word,
    (∀ j k : Fin opcodeMap.length, opcodeMap[j].selects w = true → opcodeMap[k].selects w = true → j = k) ∧
    (∀ r ∈ opcodeMap, r.selects w = true → decode w = r.build w)

/-- The words that decode to NOP are those of R70's list. -/
def Obligations.UnassignedWordsDecodeToNop : Prop :=
  ∀ w : Word, decode w = .nop w ↔
    (fieldOp w = 0x0 ∧ w ≠ 0x00E0 ∧ w ≠ 0x00EE) ∨
    (fieldOp w = 0x5 ∧ fieldLow w ≠ 0x0) ∨
    (fieldOp w = 0x8 ∧ fieldLow w ∈ [0x8, 0x9, 0xA, 0xB, 0xC, 0xD, 0xF]) ∨
    (fieldOp w = 0x9 ∧ fieldLow w ≠ 0x0) ∨
    (fieldOp w = 0xE ∧ fieldNN w ∉ [0x9E, 0xA1]) ∨
    (fieldOp w = 0xF ∧ fieldNN w ∉ [0x07, 0x0A, 0x15, 0x18, 0x1E, 0x29, 0x33, 0x55, 0x65])

/-- Words written out from the layouts of R66 decode to the instructions they stand for. -/
def Obligations.SampleWordsDecode : Prop :=
  decode 0x00E0 = .cls ∧ decode 0x1234 = .jp 0x234 ∧ decode 0x5120 = .seReg 1 2 ∧ decode 0x600A = .ldImm 0 0x0A ∧
  decode 0x8F15 = .sub 15 1 ∧ decode 0x9AB0 = .sneReg 10 11 ∧ decode 0xD125 = .drw 1 2 5 ∧ decode 0xE29E = .skp 2 ∧
  decode 0xF165 = .ldVxMem 1 ∧ decode 0x5121 = .nop 0x5121

/-- The listing of every instruction assembles to its word (R73). -/
def Obligations.ListingsAssemble : Prop :=
  ∀ i : Instr, assemble (listing i).1 (listing i).2 = some (encode i)

/-! ## The step -/

/-- An enabled step of the engine, Step(), runs the instruction decoded from the two bytes at pc, the first its high half
(R53, R63, R75). Between ticks the block's step is that step, as the first of a tick, where a playing host issues one
(R136, R140); that the playing is held in the state is the model's choice (log 8). -/
def Obligations.StepRunsTheDecodedInstruction : Prop :=
  ∀ (s : State) (i : Instr),
    s.fault = none → s.mode = .running → s.pc.toNat ≤ 0xFFE →
    decode (s.readByte s.pc.toNat ++ s.readByte (s.pc.toNat + 1)) = i →
    engineStep s = exec i s ∧
    (s.phase = .between → s.playing = true → 1 ≤ s.cyclesPerTick →
      ∃ t, exec i { s with executed := [] } = .next t ∧
        step s = .next { t with phase :=
          if t.fault ≠ none then .between
          else if t.mode = .running ∧ 1 < t.cyclesPerTick then .stepping 1 else .finishing })

/-- Inside a tick a step runs the decoded instruction too, and then the tick goes on, ends its steps, or is over (R136).
The split of the tick into moves is the model's (log 9). -/
def Obligations.StepInsideATickRunsTheDecodedInstruction : Prop :=
  ∀ (s : State) (i : Instr) (k : Nat),
    s.fault = none → s.mode = .running → s.phase = .stepping k → s.pc.toNat ≤ 0xFFE →
    decode (s.readByte s.pc.toNat ++ s.readByte (s.pc.toNat + 1)) = i →
    ∃ t, exec i s = .next t ∧
      step s = .next { t with phase :=
        if t.fault ≠ none then .between
        else if t.mode = .running ∧ k + 1 < t.cyclesPerTick then .stepping (k + 1) else .finishing }

/-- A fetch whose second byte would lie above 0xFFF takes FETCH_RANGE: the latch is all that changes (R53). Inside a tick the
fault also ends the tick (R124, R136). -/
def Obligations.FetchAboveMemoryFaults : Prop :=
  ∀ s : State, s.fault = none → s.mode = .running → 0xFFF < s.pc.toNat + 1 →
    engineStep s = .next { s with fault := some ⟨.fetchRange, s.pc, none, some s.pc.toNat⟩ } ∧
    ∀ k, s.phase = .stepping k →
      step s = .next { s with fault := some ⟨.fetchRange, s.pc, none, some s.pc.toNat⟩, phase := .between }

/-- A step is enabled only when nothing is faulted and the engine runs; otherwise no state changes, for the engine's step
and for the host's single step (R74, R124, R139). Between ticks the block's step changes nothing while the host is paused
(R145) or a fault stands (R124). That these steps are answered, as next states, and that the playing is held in the state,
are the model's choices (log 2, log 8). -/
def Obligations.HeldOrHaltedEngineDoesNothing : Prop :=
  (∀ s : State, s.fault ≠ none ∨ s.mode ≠ .running →
    engineStep s = .next s ∧ (s.phase = .between → s.handle .stepOnce = .next s)) ∧
  ∀ s : State, s.phase = .between → s.playing = false ∨ s.fault ≠ none → step s = .next s

/-- No instruction and no move of the block ends in the model's fault or refusal outcome. R71 says that no word is illegal;
that a fault, and a move of a halted, held or paused block, is answered as a next state is the model's choice (log 2). -/
def Obligations.EveryStepAnswersNext : Prop :=
  (∀ (i : Instr) (s : State), ∃ t, exec i s = .next t) ∧ ∀ s : State, ∃ t, step s = .next t

/-- A step has one of the outcomes of R76: it completes and reports pc0, holding the engine only for Fx0A, or it faults
and only the latch changes. -/
def Obligations.StepCompletesOrFaults : Prop :=
  ∀ (i : Instr) (s : State), s.fault = none →
    (∃ t, exec i s = .next t ∧ t.fault = none ∧ t.executed = s.executed ++ [s.pc] ∧
      (t.mode = s.mode ∨ ∃ x, i = .ldVxK x ∧ t.mode = .awaitingKey x)) ∨
    (∃ code info, code ≠ .fetchRange ∧ exec i s = .next (s.faultedBy i code info))

/-- After a store by Fx33 or Fx55 every byte reads as the stored one where the store reached and as before elsewhere, and the
next step decodes its word from those bytes: the store may cover both bytes of that word, one of them, or none (R61, R155). -/
def Obligations.StoreIsSeenByTheNextFetch : Prop :=
  ∀ (s : State) (i : Instr) (x : Reg) (stored : List Byte), Memory.wf s.params.font s.mem →
    s.fault = none → s.mode = .running → s.pc.toNat ≤ 0xFFC →
    decode (s.readByte s.pc.toNat ++ s.readByte (s.pc.toNat + 1)) = i →
    (i = .ldB x ∧ stored.map BitVec.toNat =
      [(s.getV x).toNat / 100, (s.getV x).toNat / 10 % 10, (s.getV x).toNat % 10]) ∨
    (i = .ldMemVx x ∧ stored.length = x + 1 ∧ ∀ k : Reg, k ≤ x → stored[k.val]? = some (s.getV k)) →
    0x50 ≤ s.i.toNat → s.i.toNat + stored.length ≤ 0x1000 →
    let now (a : Nat) : Byte := if s.i.toNat ≤ a then stored.getD (a - s.i.toNat) (s.readByte a) else s.readByte a
    ∃ t, engineStep s = .next t ∧ (∀ a, t.readByte a = now a) ∧
      engineStep t = exec (decode (now (s.pc.toNat + 2) ++ now (s.pc.toNat + 3))) t

/-! ## Control flow -/

/-- NOP: every word that selects no row is one, and it changes pc and the report only (R79). -/
def Obligations.NopOnlyAdvances : Prop :=
  (∀ w : Word, (∀ r ∈ opcodeMap, r.selects w = false) → decode w = .nop w) ∧
  ∀ (w : Word) (s : State), ∃ t, exec (.nop w) s = .next t ∧ WritesPc (s.pc + 2) s t

/-- JP nnn and JP V0, nnn: the target is nnn, or nnn + V[0] with no truncation (R81, R88). -/
def Obligations.JumpsGoToTheirTarget : Prop :=
  ∀ (nnn : Addr) (s : State),
    decode (formatA 0x1 nnn) = .jp nnn ∧ decode (formatA 0xB nnn) = .jpV0 nnn ∧
    (∃ t target, exec (.jp nnn) s = .next t ∧ WritesPc target s t ∧ target.toNat = nnn.toNat) ∧
    (∃ t target, exec (.jpV0 nnn) s = .next t ∧ WritesPc target s t ∧ target.toNat = nnn.toNat + (s.getV 0).toNat)

/-- CALL nnn: the advanced pc is pushed and pc takes nnn; on a stack of STACK_LIMIT addresses STACK_OVERFLOW is taken
(R82). The fault's info is left to the statement of R120. -/
def Obligations.CallPushesTheReturnAddress : Prop :=
  ∀ (nnn : Addr) (s : State),
    decode (formatA 0x2 nnn) = .call nnn ∧
    (s.params.stackLimit ≠ some s.stack.length →
      ∃ t target, exec (.call nnn) s = .next t ∧ target.toNat = nnn.toNat ∧
        t = { s with pc := target, stack := s.stack ++ [s.pc + 2], executed := s.executed ++ [s.pc] } ∧
        SameRegsBut [] s t ∧ SameBytes s t) ∧
    (s.params.stackLimit = some s.stack.length →
      ∃ info, exec (.call nnn) s = .next (s.faultedBy (.call nnn) .stackOverflow info))

/-- RET: pc takes the most recently pushed address and the stack loses it; on an empty stack STACK_UNDERFLOW is taken
(R80). The fault's info is left to the statement of R120. -/
def Obligations.ReturnPopsTheReturnAddress : Prop :=
  ∀ s : State,
    decode 0x00EE = .ret ∧
    (∀ as a, s.stack = as ++ [a] →
      ∃ t, exec .ret s = .next t ∧
        t = { s with pc := a, stack := as, executed := s.executed ++ [s.pc] } ∧ SameRegsBut [] s t ∧ SameBytes s t) ∧
    (s.stack = [] → ∃ info, exec .ret s = .next (s.faultedBy .ret .stackUnderflow info))

/-- A call and the return right after it come back behind the call, with the stack as it was (R80, R82). -/
def Obligations.ReturnUndoesCall : Prop :=
  ∀ (nnn : Addr) (s t : State), s.params.stackLimit ≠ some s.stack.length → exec (.call nnn) s = .next t →
    ∃ u, exec .ret t = .next u ∧ WritesPc (s.pc + 2) s { u with executed := s.executed ++ [s.pc] }

/-- The four skips: pc goes to pc0 + 4 when the condition holds and to pc0 + 2 when it does not, and nothing else but the
report changes (R83–R87). -/
def Obligations.SkipsTestTheirCondition : Prop :=
  ∀ (x y : Reg) (nn : Byte) (s : State),
    decode (formatXB 0x3 x nn) = .seImm x nn ∧ decode (formatXB 0x4 x nn) = .sneImm x nn ∧
    decode (formatXY 0x5 x y 0x0) = .seReg x y ∧ decode (formatXY 0x9 x y 0x0) = .sneReg x y ∧
    (∃ t, exec (.seImm x nn) s = .next t ∧ WritesPc (if s.getV x = nn then s.pc + 4 else s.pc + 2) s t) ∧
    (∃ t, exec (.sneImm x nn) s = .next t ∧ WritesPc (if s.getV x ≠ nn then s.pc + 4 else s.pc + 2) s t) ∧
    (∃ t, exec (.seReg x y) s = .next t ∧ WritesPc (if s.getV x = s.getV y then s.pc + 4 else s.pc + 2) s t) ∧
    (∃ t, exec (.sneReg x y) s = .next t ∧ WritesPc (if s.getV x ≠ s.getV y then s.pc + 4 else s.pc + 2) s t)

/-! ## Loads and the ALU -/

/-- LD Vx, nn; ADD Vx, nn; LD Vx, Vy: the destination alone is written, and the sum wraps with VF no carry (R90–R92). -/
def Obligations.LoadsWriteTheirRegister : Prop :=
  ∀ (x y : Reg) (nn : Byte) (s : State),
    decode (formatXB 0x6 x nn) = .ldImm x nn ∧ decode (formatXB 0x7 x nn) = .addImm x nn ∧
    decode (formatXY 0x8 x y 0x0) = .ldReg x y ∧
    (∃ t, exec (.ldImm x nn) s = .next t ∧ WritesRegs [x] s t ∧ t.getV x = nn) ∧
    (∃ t, exec (.addImm x nn) s = .next t ∧ WritesRegs [x] s t ∧
      (t.getV x).toNat = ((s.getV x).toNat + nn.toNat) % 256) ∧
    (∃ t, exec (.ldReg x y) s = .next t ∧ WritesRegs [x] s t ∧ t.getV x = s.getV y)

/-- OR, AND, XOR: bit by bit, and VF is not written unless it is the destination (R93–R95). -/
def Obligations.LogicWritesItsRegister : Prop :=
  ∀ (x y : Reg) (s : State),
    decode (formatXY 0x8 x y 0x1) = .or x y ∧ decode (formatXY 0x8 x y 0x2) = .and x y ∧
    decode (formatXY 0x8 x y 0x3) = .xor x y ∧
    (∃ t, exec (.or x y) s = .next t ∧ WritesRegs [x] s t ∧
      ∀ k, (t.getV x).getLsbD k = ((s.getV x).getLsbD k || (s.getV y).getLsbD k)) ∧
    (∃ t, exec (.and x y) s = .next t ∧ WritesRegs [x] s t ∧
      ∀ k, (t.getV x).getLsbD k = ((s.getV x).getLsbD k && (s.getV y).getLsbD k)) ∧
    (∃ t, exec (.xor x y) s = .next t ∧ WritesRegs [x] s t ∧
      ∀ k, (t.getV x).getLsbD k = ((s.getV x).getLsbD k ^^ (s.getV y).getLsbD k))

/-- ADD Vx, Vy: the sum of the old values modulo 256, and VF its carry unless the destination write overwrites it (R96). -/
def Obligations.AddSetsCarryAndSum : Prop :=
  ∀ (x y : Reg) (s : State),
    decode (formatXY 0x8 x y 0x4) = .addReg x y ∧
    ∃ t, exec (.addReg x y) s = .next t ∧ WritesRegs [x, VF] s t ∧
      (t.getV x).toNat = ((s.getV x).toNat + (s.getV y).toNat) % 256 ∧
      (x ≠ VF → (t.getV VF).toNat = if (s.getV x).toNat + (s.getV y).toNat > 255 then 1 else 0)

/-- SUB Vx, Vy: VF is NOT borrow of the old values; the subtraction reads the registers after that write (R97). -/
def Obligations.SubSetsNotBorrowAndDifference : Prop :=
  ∀ (x y : Reg) (s : State),
    decode (formatXY 0x8 x y 0x5) = .sub x y ∧
    ∀ c : Nat, c = (if (s.getV x).toNat < (s.getV y).toNat then 0 else 1) →
      ∃ t, exec (.sub x y) s = .next t ∧ WritesRegs [x, VF] s t ∧
        (t.getV x).toNat =
          ((if x = VF then c else (s.getV x).toNat) + 256 - (if y = VF then c else (s.getV y).toNat)) % 256 ∧
        (x ≠ VF → (t.getV VF).toNat = c)

/-- SUBN Vx, Vy: as SUB with the operands exchanged, the destination staying V[x] (R99). -/
def Obligations.SubnSetsNotBorrowAndDifference : Prop :=
  ∀ (x y : Reg) (s : State),
    decode (formatXY 0x8 x y 0x7) = .subn x y ∧
    ∀ c : Nat, c = (if (s.getV y).toNat < (s.getV x).toNat then 0 else 1) →
      ∃ t, exec (.subn x y) s = .next t ∧ WritesRegs [x, VF] s t ∧
        (t.getV x).toNat =
          ((if y = VF then c else (s.getV y).toNat) + 256 - (if x = VF then c else (s.getV x).toNat)) % 256 ∧
        (x ≠ VF → (t.getV VF).toNat = c)

/-- SHR and SHL: VF takes the bit shifted out of V[x], the shift reads V[x] after that write, and V[y] has no part in it
(R98, R100). -/
def Obligations.ShiftsMoveOneBit : Prop :=
  ∀ (x y : Reg) (s : State),
    decode (formatXY 0x8 x y 0x6) = .shr x y ∧ decode (formatXY 0x8 x y 0xE) = .shl x y ∧
    (∃ t, exec (.shr x y) s = .next t ∧ WritesRegs [x, VF] s t ∧
      (t.getV x).toNat = (if x = VF then (s.getV x).toNat % 2 else (s.getV x).toNat) / 2 ∧
      (x ≠ VF → (t.getV VF).toNat = (s.getV x).toNat % 2)) ∧
    (∃ t, exec (.shl x y) s = .next t ∧ WritesRegs [x, VF] s t ∧
      (t.getV x).toNat = (if x = VF then (s.getV x).toNat / 128 else (s.getV x).toNat) * 2 % 256 ∧
      (x ≠ VF → (t.getV VF).toNat = (s.getV x).toNat / 128))

/-- RND Vx, nn: V[x] is the draw masked by nn, so it has no bit outside nn, whatever the draw is; one draw is taken (R101).
That the draw is an opaque function of a count of draws is the model's choice (log 4). -/
def Obligations.RandomByteIsMasked : Prop :=
  ∀ (x : Reg) (nn : Byte) (s : State),
    decode (formatXB 0xC x nn) = .rnd x nn ∧
    ∃ t, exec (.rnd x nn) s = .next t ∧ WritesRegs [x] s { t with draws := s.draws } ∧ t.draws = s.draws + 1 ∧
      t.getV x = randByte s.draws &&& nn ∧ t.getV x &&& ~~~nn = 0

/-! ## Index register and memory -/

/-- LD I, nnn and LD F, Vx: I takes nnn, or five times the whole register (R102, R104). -/
def Obligations.IndexLoads : Prop :=
  ∀ (nnn : Addr) (x : Reg) (s : State),
    decode (formatA 0xA nnn) = .ldI nnn ∧ decode (formatX 0xF x 0x29) = .ldF x ∧
    (∃ t, exec (.ldI nnn) s = .next t ∧ WritesIndex s t ∧ t.i.toNat = nnn.toNat) ∧
    (∃ t, exec (.ldF x) s = .next t ∧ WritesIndex s t ∧ t.i.toNat = (s.getV x).toNat * 5)

/-- ADD I, Vx: the exact sum where it fits 16 bits, with no flag; INDEX_OVERFLOW with the sum where it does not (R103). -/
def Obligations.IndexAddOverflowsToAFault : Prop :=
  ∀ (x : Reg) (s : State),
    decode (formatX 0xF x 0x1E) = .addI x ∧
    (s.i.toNat + (s.getV x).toNat ≤ 0xFFFF →
      ∃ t, exec (.addI x) s = .next t ∧ WritesIndex s t ∧ t.i.toNat = s.i.toNat + (s.getV x).toNat) ∧
    (0xFFFF < s.i.toNat + (s.getV x).toNat →
      exec (.addI x) s = .next (s.faultedBy (.addI x) .indexOverflow (some (s.i.toNat + (s.getV x).toNat))))

/-- LD B, Vx: the three decimal digits at I, I + 1 and I + 2, or the fault of the lowest offending address (R105). -/
def Obligations.DecimalDigitsAreStored : Prop :=
  ∀ (x : Reg) (s : State), Memory.wf s.params.font s.mem →
    decode (formatX 0xF x 0x33) = .ldB x ∧
    (0x50 ≤ s.i.toNat → s.i.toNat + 2 ≤ 0xFFF →
      ∃ t, exec (.ldB x) s = .next t ∧ WritesBytes s.i.toNat 3 s t ∧
        (t.readByte s.i.toNat).toNat = (s.getV x).toNat / 100 ∧
        (t.readByte (s.i.toNat + 1)).toNat = (s.getV x).toNat / 10 % 10 ∧
        (t.readByte (s.i.toNat + 2)).toNat = (s.getV x).toNat % 10) ∧
    (0xFFF < s.i.toNat + 2 →
      exec (.ldB x) s = .next (s.faultedBy (.ldB x) .memRange (some (max s.i.toNat 0x1000)))) ∧
    (s.i.toNat ≤ 0x4F → exec (.ldB x) s = .next (s.faultedBy (.ldB x) .fontWrite (some s.i.toNat)))

/-- LD [I], Vx: V[0] … V[x] at I … I + x, both ends included, or the fault of the lowest offending address (R106). -/
def Obligations.RegistersAreStored : Prop :=
  ∀ (x : Reg) (s : State), Memory.wf s.params.font s.mem →
    decode (formatX 0xF x 0x55) = .ldMemVx x ∧
    (0x50 ≤ s.i.toNat → s.i.toNat + x ≤ 0xFFF →
      ∃ t, exec (.ldMemVx x) s = .next t ∧ WritesBytes s.i.toNat (x + 1) s t ∧
        ∀ k : Reg, k ≤ x → t.readByte (s.i.toNat + k) = s.getV k) ∧
    (0xFFF < s.i.toNat + x →
      exec (.ldMemVx x) s = .next (s.faultedBy (.ldMemVx x) .memRange (some (max s.i.toNat 0x1000)))) ∧
    (s.i.toNat ≤ 0x4F → exec (.ldMemVx x) s = .next (s.faultedBy (.ldMemVx x) .fontWrite (some s.i.toNat)))

/-- LD Vx, [I]: V[0] … V[x] from I … I + x, both ends included, the font region allowed, or MEM_RANGE (R107). -/
def Obligations.RegistersAreLoaded : Prop :=
  ∀ (x : Reg) (s : State),
    decode (formatX 0xF x 0x65) = .ldVxMem x ∧
    (s.i.toNat + x ≤ 0xFFF →
      ∃ t, exec (.ldVxMem x) s = .next t ∧ WritesRegs (regsUpTo x) s t ∧
        ∀ k : Reg, if k ≤ x then t.getV k = s.readByte (s.i.toNat + k) else t.getV k = s.getV k) ∧
    (0xFFF < s.i.toNat + x →
      exec (.ldVxMem x) s = .next (s.faultedBy (.ldVxMem x) .memRange (some (max s.i.toNat 0x1000))))

/-- Storing V[0] … V[x], zeroing them with I unchanged, and loading them restores every register (R107's round trip). -/
def Obligations.StoreThenLoadRestoresRegisters : Prop :=
  ∀ (x : Reg) (s t z u : State), Memory.wf s.params.font s.mem → 0x50 ≤ s.i.toNat → s.i.toNat + x ≤ 0xFFF →
    exec (.ldMemVx x) s = .next t →
    z = { t with v := z.v } → (∀ k : Reg, z.getV k = if k ≤ x then 0 else t.getV k) →
    exec (.ldVxMem x) z = .next u →
    u.v = s.v ∧ u.i = s.i

/-! ## Display -/

/-- CLS: every pixel becomes 0 and the dirty signal is raised; no register changes (R108, R110). -/
def Obligations.ClearScreenClearsEveryPixel : Prop :=
  ∀ s : State, decode 0x00E0 = .cls ∧
    ∃ t, exec .cls s = .next t ∧
      t = { s with fb := t.fb, dirty := true, pc := s.pc + 2, executed := s.executed ++ [s.pc] } ∧
      SameRegsBut [] s t ∧ SameBytes s t ∧ ∀ r c, t.pixel r c = false

/-- DRW Vx, Vy, n: each pixel of the grid flips once for every 1 bit of the n rows that falls on it, wrapping on both axes;
VF tells whether a set pixel was cleared; a sprite that reaches above 0xFFF takes MEM_RANGE (R109, R111). A grid so small
that a sprite hits a pixel twice is covered: the second hit sees the first. -/
def Obligations.SpriteDrawFlipsItsPixels : Prop :=
  ∀ (x y : Reg) (n : Fin 16) (s : State), s.params.ok → Framebuffer.wf s.params.fbWidth s.params.fbHeight s.fb →
    decode (formatXY 0xD x y (nibble n)) = .drw x y n ∧
    (n = 0 ∨ s.i.toNat + n ≤ 0x1000 →
      ∃ t, exec (.drw x y n) s = .next t ∧
        t = { s with fb := t.fb, dirty := true, v := t.v, pc := s.pc + 2, executed := s.executed ++ [s.pc] } ∧
        SameRegsBut [VF] s t ∧ SameBytes s t ∧
        (∀ r c, r < s.params.fbHeight → c < s.params.fbWidth →
          t.pixel r c = (s.pixel r c ^^ decide (s.spriteHits x y n r c % 2 = 1))) ∧
        (t.getV VF).toNat ≤ 1 ∧
        (t.getV VF = 1 ↔ ∃ r c, r < s.params.fbHeight ∧ c < s.params.fbWidth ∧
          (if s.pixel r c then 1 else 2) ≤ s.spriteHits x y n r c)) ∧
    (n ≠ 0 → 0x1000 < s.i.toNat + n →
      exec (.drw x y n) s = .next (s.faultedBy (.drw x y n) .memRange (some (max s.i.toNat 0x1000))))

/-- Drawing the same sprite at the same place twice restores the framebuffer; on a grid where no pixel is hit twice, the
second draw's VF tells whether a 1 bit of the sprite fell on a pixel that was 0 before the first (R112). -/
def Obligations.DrawingTwiceRestoresTheScreen : Prop :=
  ∀ (x y : Reg) (n : Fin 16) (s t u : State), s.params.ok → Framebuffer.wf s.params.fbWidth s.params.fbHeight s.fb →
    n = 0 ∨ s.i.toNat + n ≤ 0x1000 →
    exec (.drw x y n) s = .next t → t.getV x = s.getV x → t.getV y = s.getV y →
    exec (.drw x y n) t = .next u →
    u.fb = s.fb ∧
    (8 ≤ s.params.fbWidth → n ≤ s.params.fbHeight →
      (u.getV VF = 1 ↔ ∃ r c, r < s.params.fbHeight ∧ c < s.params.fbWidth ∧ s.pixel r c = false ∧
        0 < s.spriteHits x y n r c))

/-- On a 64-wide screen a clear row drawn with the byte 0xFF at x = 60 shows columns 60–63 and 0–3 and no others (R112). -/
def Obligations.SpriteWrapsAroundTheEdge : Prop :=
  ∀ (x y : Reg) (s : State),
    s.params.fbWidth = 64 → s.params.fbHeight = 32 → s.fb = [] → (s.getV x).toNat = 60 → s.i.toNat ≤ 0xFFF →
    s.readByte s.i.toNat = 0xFF →
    ∃ t, exec (.drw x y 1) s = .next t ∧ t.getV VF = 0 ∧
      ∀ r c, r < 32 → c < 64 → (t.pixel r c = true ↔ r = (s.getV y).toNat % 32 ∧ (60 ≤ c ∨ c < 4))

/-! ## Keypad and timers -/

/-- SKP and SKNP: the state of key V[x] as it stands decides the skip; a register above 0xF takes KEY_RANGE (R113, R114). -/
def Obligations.KeySkipsReadTheKey : Prop :=
  ∀ (x : Reg) (s : State),
    decode (formatX 0xE x 0x9E) = .skp x ∧ decode (formatX 0xE x 0xA1) = .sknp x ∧
    (∀ k : Fin 16, (s.getV x).toNat = k →
      (∃ t, exec (.skp x) s = .next t ∧ WritesPc (if s.keys[k] then s.pc + 4 else s.pc + 2) s t) ∧
      (∃ t, exec (.sknp x) s = .next t ∧ WritesPc (if s.keys[k] then s.pc + 2 else s.pc + 4) s t)) ∧
    (0xF < (s.getV x).toNat →
      exec (.skp x) s = .next (s.faultedBy (.skp x) .keyRange (some (s.getV x).toNat)) ∧
      exec (.sknp x) s = .next (s.faultedBy (.sknp x) .keyRange (some (s.getV x).toNat)))

/-- LD Vx, DT; LD DT, Vx; LD ST, Vx: the timer is read or assigned directly, and no beep is emitted (R115, R117, R118). -/
def Obligations.TimerLoads : Prop :=
  ∀ (x : Reg) (s : State),
    decode (formatX 0xF x 0x07) = .ldVxDt x ∧ decode (formatX 0xF x 0x15) = .ldDtVx x ∧
    decode (formatX 0xF x 0x18) = .ldStVx x ∧
    (∃ t, exec (.ldVxDt x) s = .next t ∧ WritesRegs [x] s t ∧ t.getV x = s.dt) ∧
    (∃ t, exec (.ldDtVx x) s = .next t ∧ WritesPc (s.pc + 2) s { t with dt := s.dt } ∧ t.dt = s.getV x) ∧
    (∃ t, exec (.ldStVx x) s = .next t ∧ WritesPc (s.pc + 2) s { t with st := s.st } ∧ t.st = s.getV x ∧
      t.outputs = s.outputs)

/-- LD Vx, K: the engine is held with pc behind the instruction; no step and no release moves it; a press writes the key's
code to V[x] and lets it run on, held key or not (R116, R131). -/
def Obligations.KeyWaitHoldsUntilAPress : Prop :=
  ∀ (x : Reg) (s : State), s.mode = .running →
    decode (formatX 0xF x 0x0A) = .ldVxK x ∧
    ∃ t, exec (.ldVxK x) s = .next t ∧ WritesPc (s.pc + 2) s { t with mode := s.mode } ∧ t.mode = .awaitingKey x ∧
      engineStep t = .next t ∧
      ∀ k : Fin 16,
        (∃ u, t.handle (.setKey k false) = .next u ∧ u = { t with keys := u.keys } ∧ u.keys = t.keys.set k false) ∧
        (∃ u, t.handle (.setKey k true) = .next u ∧ u = { t with keys := u.keys, v := u.v, mode := .running } ∧
          u.keys = t.keys.set k true ∧ SameRegsBut [x] t u ∧ (u.getV x).toNat = k)

/-- A key event changes the key's state; a press in a held engine, whatever the rest of its state, also writes the key's
code to the register the latch names and lets the engine run; nothing else changes (R131). A code above 0xF is refused
(R132). -/
def Obligations.KeyEventsChangeTheKey : Prop :=
  ∀ (code : Nat) (p : Bool) (s : State),
    (∀ k : Fin 16, code = k → p = false ∨ s.mode = .running →
      s.handle (.setKey code p) = .next { s with keys := s.keys.set k p }) ∧
    (∀ (k : Fin 16) (d : Reg), code = k → p = true → s.mode = .awaitingKey d →
      ∃ t, s.handle (.setKey code p) = .next t ∧
        t = { s with keys := s.keys.set k true, v := t.v, mode := .running } ∧
        SameRegsBut [d] s t ∧ (t.getV d).toNat = k) ∧
    (16 ≤ code → s.handle (.setKey code p) = .refused .keyCodeOutOfRange)

/-- The timer decay: each timer falls by one and stays at 0, and one beep is emitted exactly when ST was 1 (R128, R129). -/
def Obligations.TimerDecayBeepsOnce : Prop :=
  ∀ s : State,
    s.timerDecay.dt.toNat = s.dt.toNat - 1 ∧ s.timerDecay.st.toNat = s.st.toNat - 1 ∧
    s.timerDecay.outputs = s.outputs ++ (if s.st = 1 then [.beep] else []) ∧
    s.timerDecay = { s with dt := s.timerDecay.dt, st := s.timerDecay.st, outputs := s.timerDecay.outputs }

/-! ## Faults and whole-machine rules -/

/-- A step that faults changes the latch and nothing else; the latch names the instruction's address and the word fetched
from there, if one was (R121, R122). Inside a tick it also ends the tick (R124, R136), which is held in the model's own
field phase (log 9). -/
def Obligations.FaultsArePrecise : Prop :=
  (∀ (s t : State) (f : FaultRecord), s.fault = none → engineStep s = .next t → t.fault = some f →
    t = { s with fault := some f } ∧ f.pc0 = s.pc ∧
    f.word = (if s.pc.toNat + 1 ≤ 0xFFF then some (s.readByte s.pc.toNat ++ s.readByte (s.pc.toNat + 1)) else none)) ∧
  ∀ (s t : State) (f : FaultRecord) (k : Nat),
    s.fault = none → s.phase = .stepping k → step s = .next t → t.fault = some f →
    engineStep s = .next { s with fault := some f } ∧ t = { s with fault := some f, phase := .between }

/-- The fault table: the codes and their numbers, the fetch's fault exactly when pc0 + 1 lies above 0xFFF, and each other
code exactly from the instructions, under the conditions and with the info the table lists (R120). -/
def Obligations.OnlyTheseInstructionsFault : Prop :=
  [Fault.fetchRange, .memRange, .fontWrite, .stackUnderflow, .stackOverflow, .keyRange, .indexOverflow].map Fault.number =
    [1, 2, 3, 4, 5, 6, 7] ∧
  (∀ (s t : State) (info : Option Nat),
    s.fault = none → s.mode = .running →
    engineStep s = .next t ∨ (∃ k, s.phase = .stepping k) ∧ step s = .next t →
    ((∃ f, t.fault = some f ∧ f.code = .fetchRange ∧ f.info = info) ↔
      0xFFF < s.pc.toNat + 1 ∧ info = some s.pc.toNat)) ∧
  ∀ (i : Instr) (s t : State) (code : Fault) (info : Option Nat), s.fault = none → exec i s = .next t →
    let access (count : Nat) (isWrite : Bool) : Prop :=
      (code = .memRange ∧ 1 ≤ count ∧ 0x1000 < s.i.toNat + count ∧ info = some (max s.i.toNat 0x1000)) ∨
      (code = .fontWrite ∧ isWrite = true ∧ s.i.toNat ≤ 0x4F ∧ info = some s.i.toNat)
    ((∃ f, t.fault = some f ∧ f.code = code ∧ f.info = info) ↔
      match i with
      | .drw _ _ n => access n false
      | .ldB _ => access 3 true
      | .ldMemVx x => access (x + 1) true
      | .ldVxMem x => access (x + 1) false
      | .ret => code = .stackUnderflow ∧ s.stack = [] ∧ info = none
      | .call _ => code = .stackOverflow ∧ s.params.stackLimit = some s.stack.length ∧ info = none
      | .skp x => code = .keyRange ∧ 0xF < (s.getV x).toNat ∧ info = some (s.getV x).toNat
      | .sknp x => code = .keyRange ∧ 0xF < (s.getV x).toNat ∧ info = some (s.getV x).toNat
      | .addI x => code = .indexOverflow ∧ 0xFFFF < s.i.toNat + (s.getV x).toNat ∧
          info = some (s.i.toNat + (s.getV x).toNat)
      | _ => False)

/-- The halted state: no step is enabled, the block does not move, a tick and a single step do nothing, a key event changes
the key only, and a reset or a load, and no other event, clears the latch (R124). The invariant rules out states no run
reaches. -/
def Obligations.FaultedBlockStaysHalted : Prop :=
  ∀ s : State, s.Inv → s.fault ≠ none →
    s.stepEnabled = false ∧ step s = .next s ∧ tick s = .next s ∧ s.handle .tick = .next s ∧ s.handle .stepOnce = .next s ∧
    (∀ (k : Fin 16) (p : Bool), s.handle (.setKey k p) = .next { s with keys := s.keys.set k p }) ∧
    (∃ t, s.handle .reset = .next t ∧ t.fault = none) ∧
    (∀ bytes : List Byte, bytes.length ≤ 3584 → ∃ t, s.handle (.load bytes) = .next t ∧ t.fault = none) ∧
    ∀ (e : HostEvent) (t : State), s.handle e = .next t → t.fault = none → e = .reset ∨ ∃ bytes, e = .load bytes

/-- Who writes what. The V registers are written by the instructions of R27's table and by no other; pc goes to the
next instruction, stays at a fault, or goes where a control transfer alone sends it (R80–R88); I, the stack, the timers, the
framebuffer, dirty, the await-key latch, the fault latch and memory are each written by the instructions the spec names and
by no other; the report grows by pc0 or stays; no instruction writes the keys, the budget or a parameter (R27–R37, R39, R40,
R56, R120). The clauses on draws, phase, playing and outputs are about the model's own fields (logs 4, 8, 9, 12). -/
def Obligations.EachPieceOfStateHasItsWriters : Prop :=
  ∀ (i : Instr) (s t : State), exec i s = .next t →
    (∀ r : Reg, t.getV r ≠ s.getV r →
      match i with
      | .ldImm x _ | .addImm x _ | .ldReg x _ | .or x _ | .and x _ | .xor x _ | .rnd x _ | .ldVxDt x => r = x
      | .addReg x _ | .sub x _ | .shr x _ | .subn x _ | .shl x _ => r = x ∨ r = VF
      | .drw _ _ _ => r = VF
      | .ldVxMem x => r ≤ x
      | _ => False) ∧
    (t.pc = s.pc + 2 ∨ t.fault ≠ none ∧ t.pc = s.pc ∨
      match i with
      | .ret | .jp _ | .call _ | .jpV0 _ => True
      | .seImm _ _ | .sneImm _ _ | .seReg _ _ | .sneReg _ _ | .skp _ | .sknp _ => t.pc = s.pc + 4
      | _ => False) ∧
    (t.i ≠ s.i → (∃ nnn, i = .ldI nnn) ∨ (∃ x, i = .addI x) ∨ ∃ x, i = .ldF x) ∧
    (t.stack ≠ s.stack → i = .ret ∨ ∃ nnn, i = .call nnn) ∧
    (t.dt ≠ s.dt → ∃ x, i = .ldDtVx x) ∧
    (t.st ≠ s.st → ∃ x, i = .ldStVx x) ∧
    (t.fb ≠ s.fb ∨ t.dirty ≠ s.dirty → i = .cls ∨ ∃ x y n, i = .drw x y n) ∧
    (t.mode ≠ s.mode → ∃ x, i = .ldVxK x) ∧
    (t.mem ≠ s.mem → (∃ x, i = .ldB x) ∨ ∃ x, i = .ldMemVx x) ∧
    (t.fault ≠ s.fault →
      match i with
      | .ret | .call _ | .addI _ | .ldB _ | .ldMemVx _ | .ldVxMem _ | .drw _ _ _ | .skp _ | .sknp _ => True
      | _ => False) ∧
    (t.executed = s.executed ++ [s.pc] ∨ t.fault ≠ none ∧ t.executed = s.executed) ∧
    t.keys = s.keys ∧ t.cyclesPerTick = s.cyclesPerTick ∧ t.params = s.params ∧
    (t.draws ≠ s.draws → ∃ x nn, i = .rnd x nn) ∧
    t.phase = s.phase ∧ t.playing = s.playing ∧ t.outputs = s.outputs

/-- No instruction reads the dirty signal, the report, ST or the outputs: two states that agree on all else still do after
one instruction (R32, R37, R39, R129, R142). -/
def Obligations.NoInstructionReadsTheOutputs : Prop :=
  ∀ (i : Instr) (s s' t t' : State), s.visible = s'.visible →
    exec i s = .next t → exec i s' = .next t' → t.visible = t'.visible

/-! ## The Scheduler and the host -/

/-- A tick with no key event inside it is its moves (R136). A tick event, and the first move of the tick a playing host
issues, clears the report and begins the steps where the engine runs, and the end of the tick where it is held (R137); a
faulted block begins nothing (R124). From there the block's moves, at most the budget's steps and one more, come to the state
`tick` gives, and not before is the block between ticks again. The last move of a tick that ran decays the timers, presents
the frame and clears dirty. The moves, and the playing, are the model's form of R136 and R140 (logs 8, 9). -/
def Obligations.TickIsTheRunOfItsMoves : Prop :=
  (∀ s : State, s.phase = .between →
    ∃ b, s.handle .tick = .next b ∧
      (s.fault = none → s.mode = .running → 1 ≤ s.cyclesPerTick →
        b = { s with executed := [], phase := .stepping 0 }) ∧
      (s.fault = none → s.mode ≠ .running → b = { s with executed := [], phase := .finishing }) ∧
      (s.fault ≠ none → b = s) ∧
      (s.playing = true → step s = step b) ∧
      ∃ k, k ≤ s.cyclesPerTick + 1 ∧ Host.Core.run Sys2Proof.core k b = tick s ∧
        ∀ j < k, ∃ u, Host.Core.run Sys2Proof.core j b = .next u ∧ u.phase ≠ .between) ∧
  ∀ s : State, s.phase = .finishing →
    ∃ t report, step s = .next t ∧
      t = { s with dt := t.dt, st := t.st, dirty := false, outputs := t.outputs, phase := .between } ∧
      t.dt.toNat = s.dt.toNat - 1 ∧ t.st.toNat = s.st.toNat - 1 ∧
      t.outputs = s.outputs ++ (if s.st = 1 then [.beep] else []) ++ [.frameComplete report] ∧
      report.width = s.params.fbWidth ∧ report.height = s.params.fbHeight ∧ report.fb = s.fb ∧
      report.dirty = s.dirty ∧ report.executed = s.executed ∧ report.v = s.v ∧ report.i = s.i ∧ report.pc = s.pc

/-- A tick of a held engine runs no step, decays the timers once and emits the frame output; a tick of a faulted block does
nothing (R124, R137). -/
def Obligations.HeldTickOnlyDecays : Prop :=
  ∀ s : State,
    (∀ d, s.fault = none → s.mode = .awaitingKey d →
      ∃ t report, tick s = .next t ∧
        t = { s with dt := t.dt, st := t.st, executed := [], dirty := false, outputs := t.outputs } ∧
        t.dt.toNat = s.dt.toNat - 1 ∧ t.st.toNat = s.st.toNat - 1 ∧
        t.outputs = s.outputs ++ (if s.st = 1 then [.beep] else []) ++ [.frameComplete report] ∧
        report.width = s.params.fbWidth ∧ report.height = s.params.fbHeight ∧
        report.fb = s.fb ∧ report.dirty = s.dirty ∧ report.executed = [] ∧ report.v = s.v ∧ report.i = s.i ∧
        report.pc = s.pc) ∧
    (s.fault ≠ none → tick s = .next s)

/-- A tick runs at most the budget's steps and its report lists the completed ones; a tick that ends well emits one frame
report and at most one beep; a tick that faults emits nothing (R124, R129, R136). -/
def Obligations.TickStaysWithinTheBudget : Prop :=
  ∀ s t : State, s.fault = none → tick s = .next t →
    t.executed.length ≤ s.cyclesPerTick ∧
    (t.fault = none → t.dirty = false ∧ ∃ beeps report,
      t.outputs = s.outputs ++ beeps ++ [.frameComplete report] ∧ (beeps = [] ∨ beeps = [.beep]) ∧
      report.executed = t.executed) ∧
    (t.fault ≠ none → t.outputs = s.outputs)

/-- A single step that completes: one instruction, reported alone, then a decay if the parameter says so, then the frame
output (R139), whatever the open parameter is. Between ticks the event stepOnce is that single step, with the value the
parameter has, which no proof can see (log 6). -/
def Obligations.SingleStepPresentsItsStep : Prop :=
  (∀ (decays : Bool) (s t : State), s.fault = none → s.mode = .running →
    engineStep { s with executed := [] } = .next t → t.fault = none →
    ∃ u report, stepOnceWith decays s = .next u ∧
      u = { t with dt := u.dt, st := u.st, dirty := false, outputs := u.outputs } ∧ t.executed = [s.pc] ∧
      u.dt.toNat = t.dt.toNat - (if decays then 1 else 0) ∧ u.st.toNat = t.st.toNat - (if decays then 1 else 0) ∧
      u.outputs = s.outputs ++ (if decays ∧ t.st = 1 then [.beep] else []) ++ [.frameComplete report] ∧
      report.width = t.params.fbWidth ∧ report.height = t.params.fbHeight ∧
      report.executed = [s.pc] ∧ report.fb = t.fb ∧ report.dirty = t.dirty ∧ report.v = t.v ∧ report.i = t.i ∧
      report.pc = t.pc) ∧
  ∀ s : State, s.phase = .between → s.handle .stepOnce = stepOnceWith stepOnceTicksTimers s

/-- Reset: every item of R42 at its reset value, and the cycle budget as it was; at power-on the budget is 10 (R42, R146,
R147). The parameters stay as they were (R9, R11, R12); that they are held in the state is the model's choice (log 5). -/
def Obligations.ResetClearsTheBlock : Prop :=
  State.reset.cyclesPerTick = 10 ∧
  ∀ s : State, s.phase = .between →
    ∃ t, s.handle .reset = .next t ∧ (∀ r, t.getV r = 0) ∧ t.i = 0 ∧ t.pc = 0x200 ∧ t.stack = [] ∧ t.dt = 0 ∧ t.st = 0 ∧
      (∀ a (h : a < 80), t.readByte a = s.params.font[a]) ∧ (∀ a, 80 ≤ a → t.readByte a = 0) ∧
      (∀ r c, t.pixel r c = false) ∧ (∀ k : Fin 16, t.keys[k] = false) ∧ t.mode = .running ∧ t.fault = none ∧
      t.dirty = false ∧ t.executed = [] ∧ t.cyclesPerTick = s.cyclesPerTick ∧ t.params = s.params

/-- Load: a reset, then the image verbatim from 0x200 on, zeros behind it and nothing below it; an image of more than 3584
bytes is refused (R148, R149). -/
def Obligations.LoadPlacesTheImage : Prop :=
  ∀ (bytes : List Byte) (s : State), s.phase = .between →
    (bytes.length ≤ 3584 →
      ∃ r t, s.handle .reset = .next r ∧ s.handle (.load bytes) = .next t ∧ t = { r with mem := t.mem } ∧
        (∀ a, a < 0x200 → t.readByte a = r.readByte a) ∧
        ∀ k, t.readByte (0x200 + k) = bytes.getD k (r.readByte (0x200 + k))) ∧
    (3584 < bytes.length → s.handle (.load bytes) = .refused .imageTooLong)

/-- The event setCyclesPerTick writes the cycle budget, with 1 … 30; other values are refused (R10, R140). -/
def Obligations.CycleBudgetIsOneToThirty : Prop :=
  ∀ (n : Nat) (s : State), s.phase = .between →
    (1 ≤ n ∧ n ≤ 30 → s.handle (.setCyclesPerTick n) = .next { s with cyclesPerTick := n }) ∧
    (n = 0 ∨ 30 < n → s.handle (.setCyclesPerTick n) = .refused .cyclesOutOfRange)

/-- A parked engine stays where it is: a step of the engine changes nothing but the report, and a whole tick reports pc once
for each step of the budget, decays the timers once, presents the frame, and leaves the engine parked (R152, R136). -/
def Obligations.ParkedEngineStays : Prop :=
  ∀ s : State, s.fault = none → s.mode = .running → s.isParked = true →
    engineStep s = .next { s with executed := s.executed ++ [s.pc] } ∧
    ∃ t report, tick s = .next t ∧
      t = { s with dt := t.dt, st := t.st, dirty := false, executed := List.replicate s.cyclesPerTick s.pc,
                   outputs := t.outputs } ∧
      t.dt.toNat = s.dt.toNat - 1 ∧ t.st.toNat = s.st.toNat - 1 ∧
      t.outputs = s.outputs ++ (if s.st = 1 then [.beep] else []) ++ [.frameComplete report] ∧
      report.width = s.params.fbWidth ∧ report.height = s.params.fbHeight ∧ report.fb = s.fb ∧
      report.dirty = s.dirty ∧ report.executed = t.executed ∧ report.v = s.v ∧ report.i = s.i ∧ report.pc = s.pc ∧
      t.isParked = true

/-- The conditions a run is observed in: faulted, held, parked on the self-jump at pc, or running (R151). That a held engine
whose pc stands on a self-jump counts as held is the model's choice (log 18). -/
def Obligations.RunIsObservedInOneCondition : Prop :=
  ∀ s : State,
    (s.condition = .faulted ↔ s.fault ≠ none) ∧
    (s.condition = .held ↔ s.fault = none ∧ s.mode ≠ .running) ∧
    (s.condition = .parked ↔ s.fault = none ∧ s.mode = .running ∧ s.pc.toNat ≤ 0xFFE ∧
      ∃ nnn : Addr, nnn.toNat = s.pc.toNat ∧
        s.readByte s.pc.toNat ++ s.readByte (s.pc.toNat + 1) = formatA 0x1 nnn)

/-- While a tick is in progress every event that changes the block is refused, but a key event. The refusal is the model's
form of the rule that these events come between ticks (R138; log 10). play and pause, in every state, set the model's own
field that says whether the host issues ticks, and leave all the rest as it is (R140; log 8). -/
def Obligations.EventsDuringATickAreRefused : Prop :=
  (∀ (e : HostEvent) (s : State),
    s.phase ≠ .between → (∀ code p, e ≠ .setKey code p) → e ≠ .play → e ≠ .pause →
    s.handle e = .refused .tickInProgress) ∧
  ∀ s : State,
    s.handle .play = .next { s with playing := true } ∧ s.handle .pause = .next { s with playing := false }

/-! ## Invariants -/

/-- The invariant holds at reset (R42). -/
def Obligations.ResetMeetsTheInvariant : Prop := State.reset.Inv

/-- Every move of the block keeps the invariant. -/
def Obligations.StepKeepsTheInvariant : Prop :=
  ∀ s t : State, s.Inv → step s = .next t → t.Inv

/-- Every event of the host keeps the invariant (R138, R142). -/
def Obligations.HostEventsKeepTheInvariant : Prop :=
  ∀ (e : HostEvent) (s t : State), s.Inv → s.handle e = .next t → t.Inv

/-- In every state the block reaches, by any steps and events from power-on: pc is at most 0x10FE, every byte of the font
region is the FONT byte written at reset, and no fault stands in a held engine (R29, R45, R124). -/
def Obligations.ReachableStatesKeepFontAndPcBound : Prop :=
  ∀ s : State, Reachable s →
    s.pc.toNat ≤ 0x10FE ∧ (∀ a (h : a < 80), s.readByte a = s.params.font[a]) ∧
    (s.fault ≠ none → s.mode = .running)
end

