-- ==== Sys2Proof/Laws/State.lean ====
section
/-! SUPPORT. What each update of a state leaves in each field: one lemma per field per update, so that no later proof
unfolds a record update. -/

namespace Sys2Proof.Machine

section
variable (s : State)

@[simp] theorem advance_v : (s.advance).v = s.v := rfl
@[simp] theorem advance_i : (s.advance).i = s.i := rfl
@[simp] theorem advance_pc : (s.advance).pc = s.pc + 2 := rfl
@[simp] theorem advance_stack : (s.advance).stack = s.stack := rfl
@[simp] theorem advance_dt : (s.advance).dt = s.dt := rfl
@[simp] theorem advance_st : (s.advance).st = s.st := rfl
@[simp] theorem advance_keys : (s.advance).keys = s.keys := rfl
@[simp] theorem advance_mode : (s.advance).mode = s.mode := rfl
@[simp] theorem advance_fault : (s.advance).fault = s.fault := rfl
@[simp] theorem advance_fb : (s.advance).fb = s.fb := rfl
@[simp] theorem advance_dirty : (s.advance).dirty = s.dirty := rfl
@[simp] theorem advance_executed : (s.advance).executed = s.executed := rfl
@[simp] theorem advance_cyclesPerTick : (s.advance).cyclesPerTick = s.cyclesPerTick := rfl
@[simp] theorem advance_mem : (s.advance).mem = s.mem := rfl
@[simp] theorem advance_phase : (s.advance).phase = s.phase := rfl
@[simp] theorem advance_playing : (s.advance).playing = s.playing := rfl
@[simp] theorem advance_params : (s.advance).params = s.params := rfl
@[simp] theorem advance_draws : (s.advance).draws = s.draws := rfl
@[simp] theorem advance_outputs : (s.advance).outputs = s.outputs := rfl

@[simp] theorem report_v (a : Word) : (s.report a).v = s.v := rfl
@[simp] theorem report_i (a : Word) : (s.report a).i = s.i := rfl
@[simp] theorem report_pc (a : Word) : (s.report a).pc = s.pc := rfl
@[simp] theorem report_stack (a : Word) : (s.report a).stack = s.stack := rfl
@[simp] theorem report_dt (a : Word) : (s.report a).dt = s.dt := rfl
@[simp] theorem report_st (a : Word) : (s.report a).st = s.st := rfl
@[simp] theorem report_keys (a : Word) : (s.report a).keys = s.keys := rfl
@[simp] theorem report_mode (a : Word) : (s.report a).mode = s.mode := rfl
@[simp] theorem report_fault (a : Word) : (s.report a).fault = s.fault := rfl
@[simp] theorem report_fb (a : Word) : (s.report a).fb = s.fb := rfl
@[simp] theorem report_dirty (a : Word) : (s.report a).dirty = s.dirty := rfl
@[simp] theorem report_executed (a : Word) : (s.report a).executed = s.executed ++ [a] := rfl
@[simp] theorem report_cyclesPerTick (a : Word) : (s.report a).cyclesPerTick = s.cyclesPerTick := rfl
@[simp] theorem report_mem (a : Word) : (s.report a).mem = s.mem := rfl
@[simp] theorem report_phase (a : Word) : (s.report a).phase = s.phase := rfl
@[simp] theorem report_playing (a : Word) : (s.report a).playing = s.playing := rfl
@[simp] theorem report_params (a : Word) : (s.report a).params = s.params := rfl
@[simp] theorem report_draws (a : Word) : (s.report a).draws = s.draws := rfl
@[simp] theorem report_outputs (a : Word) : (s.report a).outputs = s.outputs := rfl

@[simp] theorem setV_v (x : Reg) (b : Byte) : (s.setV x b).v = s.v.set x b := rfl
@[simp] theorem setV_i (x : Reg) (b : Byte) : (s.setV x b).i = s.i := rfl
@[simp] theorem setV_pc (x : Reg) (b : Byte) : (s.setV x b).pc = s.pc := rfl
@[simp] theorem setV_stack (x : Reg) (b : Byte) : (s.setV x b).stack = s.stack := rfl
@[simp] theorem setV_dt (x : Reg) (b : Byte) : (s.setV x b).dt = s.dt := rfl
@[simp] theorem setV_st (x : Reg) (b : Byte) : (s.setV x b).st = s.st := rfl
@[simp] theorem setV_keys (x : Reg) (b : Byte) : (s.setV x b).keys = s.keys := rfl
@[simp] theorem setV_mode (x : Reg) (b : Byte) : (s.setV x b).mode = s.mode := rfl
@[simp] theorem setV_fault (x : Reg) (b : Byte) : (s.setV x b).fault = s.fault := rfl
@[simp] theorem setV_fb (x : Reg) (b : Byte) : (s.setV x b).fb = s.fb := rfl
@[simp] theorem setV_dirty (x : Reg) (b : Byte) : (s.setV x b).dirty = s.dirty := rfl
@[simp] theorem setV_executed (x : Reg) (b : Byte) : (s.setV x b).executed = s.executed := rfl
@[simp] theorem setV_cyclesPerTick (x : Reg) (b : Byte) : (s.setV x b).cyclesPerTick = s.cyclesPerTick := rfl
@[simp] theorem setV_mem (x : Reg) (b : Byte) : (s.setV x b).mem = s.mem := rfl
@[simp] theorem setV_phase (x : Reg) (b : Byte) : (s.setV x b).phase = s.phase := rfl
@[simp] theorem setV_playing (x : Reg) (b : Byte) : (s.setV x b).playing = s.playing := rfl
@[simp] theorem setV_params (x : Reg) (b : Byte) : (s.setV x b).params = s.params := rfl
@[simp] theorem setV_draws (x : Reg) (b : Byte) : (s.setV x b).draws = s.draws := rfl
@[simp] theorem setV_outputs (x : Reg) (b : Byte) : (s.setV x b).outputs = s.outputs := rfl

@[simp] theorem setI_v (w : Word) : (s.setI w).v = s.v := rfl
@[simp] theorem setI_i (w : Word) : (s.setI w).i = w := rfl
@[simp] theorem setI_pc (w : Word) : (s.setI w).pc = s.pc := rfl
@[simp] theorem setI_stack (w : Word) : (s.setI w).stack = s.stack := rfl
@[simp] theorem setI_dt (w : Word) : (s.setI w).dt = s.dt := rfl
@[simp] theorem setI_st (w : Word) : (s.setI w).st = s.st := rfl
@[simp] theorem setI_keys (w : Word) : (s.setI w).keys = s.keys := rfl
@[simp] theorem setI_mode (w : Word) : (s.setI w).mode = s.mode := rfl
@[simp] theorem setI_fault (w : Word) : (s.setI w).fault = s.fault := rfl
@[simp] theorem setI_fb (w : Word) : (s.setI w).fb = s.fb := rfl
@[simp] theorem setI_dirty (w : Word) : (s.setI w).dirty = s.dirty := rfl
@[simp] theorem setI_executed (w : Word) : (s.setI w).executed = s.executed := rfl
@[simp] theorem setI_cyclesPerTick (w : Word) : (s.setI w).cyclesPerTick = s.cyclesPerTick := rfl
@[simp] theorem setI_mem (w : Word) : (s.setI w).mem = s.mem := rfl
@[simp] theorem setI_phase (w : Word) : (s.setI w).phase = s.phase := rfl
@[simp] theorem setI_playing (w : Word) : (s.setI w).playing = s.playing := rfl
@[simp] theorem setI_params (w : Word) : (s.setI w).params = s.params := rfl
@[simp] theorem setI_draws (w : Word) : (s.setI w).draws = s.draws := rfl
@[simp] theorem setI_outputs (w : Word) : (s.setI w).outputs = s.outputs := rfl

@[simp] theorem jump_v (w : Word) : (s.jump w).v = s.v := rfl
@[simp] theorem jump_i (w : Word) : (s.jump w).i = s.i := rfl
@[simp] theorem jump_pc (w : Word) : (s.jump w).pc = w := rfl
@[simp] theorem jump_stack (w : Word) : (s.jump w).stack = s.stack := rfl
@[simp] theorem jump_dt (w : Word) : (s.jump w).dt = s.dt := rfl
@[simp] theorem jump_st (w : Word) : (s.jump w).st = s.st := rfl
@[simp] theorem jump_keys (w : Word) : (s.jump w).keys = s.keys := rfl
@[simp] theorem jump_mode (w : Word) : (s.jump w).mode = s.mode := rfl
@[simp] theorem jump_fault (w : Word) : (s.jump w).fault = s.fault := rfl
@[simp] theorem jump_fb (w : Word) : (s.jump w).fb = s.fb := rfl
@[simp] theorem jump_dirty (w : Word) : (s.jump w).dirty = s.dirty := rfl
@[simp] theorem jump_executed (w : Word) : (s.jump w).executed = s.executed := rfl
@[simp] theorem jump_cyclesPerTick (w : Word) : (s.jump w).cyclesPerTick = s.cyclesPerTick := rfl
@[simp] theorem jump_mem (w : Word) : (s.jump w).mem = s.mem := rfl
@[simp] theorem jump_phase (w : Word) : (s.jump w).phase = s.phase := rfl
@[simp] theorem jump_playing (w : Word) : (s.jump w).playing = s.playing := rfl
@[simp] theorem jump_params (w : Word) : (s.jump w).params = s.params := rfl
@[simp] theorem jump_draws (w : Word) : (s.jump w).draws = s.draws := rfl
@[simp] theorem jump_outputs (w : Word) : (s.jump w).outputs = s.outputs := rfl

@[simp] theorem skip_v : (s.skip).v = s.v := rfl
@[simp] theorem skip_i : (s.skip).i = s.i := rfl
@[simp] theorem skip_pc : (s.skip).pc = s.pc + 2 := rfl
@[simp] theorem skip_stack : (s.skip).stack = s.stack := rfl
@[simp] theorem skip_dt : (s.skip).dt = s.dt := rfl
@[simp] theorem skip_st : (s.skip).st = s.st := rfl
@[simp] theorem skip_keys : (s.skip).keys = s.keys := rfl
@[simp] theorem skip_mode : (s.skip).mode = s.mode := rfl
@[simp] theorem skip_fault : (s.skip).fault = s.fault := rfl
@[simp] theorem skip_fb : (s.skip).fb = s.fb := rfl
@[simp] theorem skip_dirty : (s.skip).dirty = s.dirty := rfl
@[simp] theorem skip_executed : (s.skip).executed = s.executed := rfl
@[simp] theorem skip_cyclesPerTick : (s.skip).cyclesPerTick = s.cyclesPerTick := rfl
@[simp] theorem skip_mem : (s.skip).mem = s.mem := rfl
@[simp] theorem skip_phase : (s.skip).phase = s.phase := rfl
@[simp] theorem skip_playing : (s.skip).playing = s.playing := rfl
@[simp] theorem skip_params : (s.skip).params = s.params := rfl
@[simp] theorem skip_draws : (s.skip).draws = s.draws := rfl
@[simp] theorem skip_outputs : (s.skip).outputs = s.outputs := rfl

@[simp] theorem push_v (a : Word) : (s.push a).v = s.v := rfl
@[simp] theorem push_i (a : Word) : (s.push a).i = s.i := rfl
@[simp] theorem push_pc (a : Word) : (s.push a).pc = s.pc := rfl
@[simp] theorem push_stack (a : Word) : (s.push a).stack = s.stack ++ [a] := rfl
@[simp] theorem push_dt (a : Word) : (s.push a).dt = s.dt := rfl
@[simp] theorem push_st (a : Word) : (s.push a).st = s.st := rfl
@[simp] theorem push_keys (a : Word) : (s.push a).keys = s.keys := rfl
@[simp] theorem push_mode (a : Word) : (s.push a).mode = s.mode := rfl
@[simp] theorem push_fault (a : Word) : (s.push a).fault = s.fault := rfl
@[simp] theorem push_fb (a : Word) : (s.push a).fb = s.fb := rfl
@[simp] theorem push_dirty (a : Word) : (s.push a).dirty = s.dirty := rfl
@[simp] theorem push_executed (a : Word) : (s.push a).executed = s.executed := rfl
@[simp] theorem push_cyclesPerTick (a : Word) : (s.push a).cyclesPerTick = s.cyclesPerTick := rfl
@[simp] theorem push_mem (a : Word) : (s.push a).mem = s.mem := rfl
@[simp] theorem push_phase (a : Word) : (s.push a).phase = s.phase := rfl
@[simp] theorem push_playing (a : Word) : (s.push a).playing = s.playing := rfl
@[simp] theorem push_params (a : Word) : (s.push a).params = s.params := rfl
@[simp] theorem push_draws (a : Word) : (s.push a).draws = s.draws := rfl
@[simp] theorem push_outputs (a : Word) : (s.push a).outputs = s.outputs := rfl

@[simp] theorem writeByte_v (a : Nat) (b : Byte) : (s.writeByte a b).v = s.v := rfl
@[simp] theorem writeByte_i (a : Nat) (b : Byte) : (s.writeByte a b).i = s.i := rfl
@[simp] theorem writeByte_pc (a : Nat) (b : Byte) : (s.writeByte a b).pc = s.pc := rfl
@[simp] theorem writeByte_stack (a : Nat) (b : Byte) : (s.writeByte a b).stack = s.stack := rfl
@[simp] theorem writeByte_dt (a : Nat) (b : Byte) : (s.writeByte a b).dt = s.dt := rfl
@[simp] theorem writeByte_st (a : Nat) (b : Byte) : (s.writeByte a b).st = s.st := rfl
@[simp] theorem writeByte_keys (a : Nat) (b : Byte) : (s.writeByte a b).keys = s.keys := rfl
@[simp] theorem writeByte_mode (a : Nat) (b : Byte) : (s.writeByte a b).mode = s.mode := rfl
@[simp] theorem writeByte_fault (a : Nat) (b : Byte) : (s.writeByte a b).fault = s.fault := rfl
@[simp] theorem writeByte_fb (a : Nat) (b : Byte) : (s.writeByte a b).fb = s.fb := rfl
@[simp] theorem writeByte_dirty (a : Nat) (b : Byte) : (s.writeByte a b).dirty = s.dirty := rfl
@[simp] theorem writeByte_executed (a : Nat) (b : Byte) : (s.writeByte a b).executed = s.executed := rfl
@[simp] theorem writeByte_cyclesPerTick (a : Nat) (b : Byte) : (s.writeByte a b).cyclesPerTick = s.cyclesPerTick := rfl
@[simp] theorem writeByte_mem (a : Nat) (b : Byte) : (s.writeByte a b).mem = Memory.write s.params.font s.mem a b := rfl
@[simp] theorem writeByte_phase (a : Nat) (b : Byte) : (s.writeByte a b).phase = s.phase := rfl
@[simp] theorem writeByte_playing (a : Nat) (b : Byte) : (s.writeByte a b).playing = s.playing := rfl
@[simp] theorem writeByte_params (a : Nat) (b : Byte) : (s.writeByte a b).params = s.params := rfl
@[simp] theorem writeByte_draws (a : Nat) (b : Byte) : (s.writeByte a b).draws = s.draws := rfl
@[simp] theorem writeByte_outputs (a : Nat) (b : Byte) : (s.writeByte a b).outputs = s.outputs := rfl

@[simp] theorem setFlag_v (b : Bool) : (s.setFlag b).v = s.v.set VF (bit b) := rfl
@[simp] theorem setFlag_i (b : Bool) : (s.setFlag b).i = s.i := rfl
@[simp] theorem setFlag_pc (b : Bool) : (s.setFlag b).pc = s.pc := rfl
@[simp] theorem setFlag_stack (b : Bool) : (s.setFlag b).stack = s.stack := rfl
@[simp] theorem setFlag_dt (b : Bool) : (s.setFlag b).dt = s.dt := rfl
@[simp] theorem setFlag_st (b : Bool) : (s.setFlag b).st = s.st := rfl
@[simp] theorem setFlag_keys (b : Bool) : (s.setFlag b).keys = s.keys := rfl
@[simp] theorem setFlag_mode (b : Bool) : (s.setFlag b).mode = s.mode := rfl
@[simp] theorem setFlag_fault (b : Bool) : (s.setFlag b).fault = s.fault := rfl
@[simp] theorem setFlag_fb (b : Bool) : (s.setFlag b).fb = s.fb := rfl
@[simp] theorem setFlag_dirty (b : Bool) : (s.setFlag b).dirty = s.dirty := rfl
@[simp] theorem setFlag_executed (b : Bool) : (s.setFlag b).executed = s.executed := rfl
@[simp] theorem setFlag_cyclesPerTick (b : Bool) : (s.setFlag b).cyclesPerTick = s.cyclesPerTick := rfl
@[simp] theorem setFlag_mem (b : Bool) : (s.setFlag b).mem = s.mem := rfl
@[simp] theorem setFlag_phase (b : Bool) : (s.setFlag b).phase = s.phase := rfl
@[simp] theorem setFlag_playing (b : Bool) : (s.setFlag b).playing = s.playing := rfl
@[simp] theorem setFlag_params (b : Bool) : (s.setFlag b).params = s.params := rfl
@[simp] theorem setFlag_draws (b : Bool) : (s.setFlag b).draws = s.draws := rfl
@[simp] theorem setFlag_outputs (b : Bool) : (s.setFlag b).outputs = s.outputs := rfl

@[simp] theorem clearScreen_v : (s.clearScreen).v = s.v := rfl
@[simp] theorem clearScreen_i : (s.clearScreen).i = s.i := rfl
@[simp] theorem clearScreen_pc : (s.clearScreen).pc = s.pc := rfl
@[simp] theorem clearScreen_stack : (s.clearScreen).stack = s.stack := rfl
@[simp] theorem clearScreen_dt : (s.clearScreen).dt = s.dt := rfl
@[simp] theorem clearScreen_st : (s.clearScreen).st = s.st := rfl
@[simp] theorem clearScreen_keys : (s.clearScreen).keys = s.keys := rfl
@[simp] theorem clearScreen_mode : (s.clearScreen).mode = s.mode := rfl
@[simp] theorem clearScreen_fault : (s.clearScreen).fault = s.fault := rfl
@[simp] theorem clearScreen_fb : (s.clearScreen).fb = [] := rfl
@[simp] theorem clearScreen_dirty : (s.clearScreen).dirty = true := rfl
@[simp] theorem clearScreen_executed : (s.clearScreen).executed = s.executed := rfl
@[simp] theorem clearScreen_cyclesPerTick : (s.clearScreen).cyclesPerTick = s.cyclesPerTick := rfl
@[simp] theorem clearScreen_mem : (s.clearScreen).mem = s.mem := rfl
@[simp] theorem clearScreen_phase : (s.clearScreen).phase = s.phase := rfl
@[simp] theorem clearScreen_playing : (s.clearScreen).playing = s.playing := rfl
@[simp] theorem clearScreen_params : (s.clearScreen).params = s.params := rfl
@[simp] theorem clearScreen_draws : (s.clearScreen).draws = s.draws := rfl
@[simp] theorem clearScreen_outputs : (s.clearScreen).outputs = s.outputs := rfl

@[simp] theorem drawn_v : (s.drawn).v = s.v := rfl
@[simp] theorem drawn_i : (s.drawn).i = s.i := rfl
@[simp] theorem drawn_pc : (s.drawn).pc = s.pc := rfl
@[simp] theorem drawn_stack : (s.drawn).stack = s.stack := rfl
@[simp] theorem drawn_dt : (s.drawn).dt = s.dt := rfl
@[simp] theorem drawn_st : (s.drawn).st = s.st := rfl
@[simp] theorem drawn_keys : (s.drawn).keys = s.keys := rfl
@[simp] theorem drawn_mode : (s.drawn).mode = s.mode := rfl
@[simp] theorem drawn_fault : (s.drawn).fault = s.fault := rfl
@[simp] theorem drawn_fb : (s.drawn).fb = s.fb := rfl
@[simp] theorem drawn_dirty : (s.drawn).dirty = s.dirty := rfl
@[simp] theorem drawn_executed : (s.drawn).executed = s.executed := rfl
@[simp] theorem drawn_cyclesPerTick : (s.drawn).cyclesPerTick = s.cyclesPerTick := rfl
@[simp] theorem drawn_mem : (s.drawn).mem = s.mem := rfl
@[simp] theorem drawn_phase : (s.drawn).phase = s.phase := rfl
@[simp] theorem drawn_playing : (s.drawn).playing = s.playing := rfl
@[simp] theorem drawn_params : (s.drawn).params = s.params := rfl
@[simp] theorem drawn_draws : (s.drawn).draws = s.draws + 1 := rfl
@[simp] theorem drawn_outputs : (s.drawn).outputs = s.outputs := rfl

@[simp] theorem takeFault_v (w : Option Word) (r : Raised) : (s.takeFault w r).v = s.v := rfl
@[simp] theorem takeFault_i (w : Option Word) (r : Raised) : (s.takeFault w r).i = s.i := rfl
@[simp] theorem takeFault_pc (w : Option Word) (r : Raised) : (s.takeFault w r).pc = s.pc := rfl
@[simp] theorem takeFault_stack (w : Option Word) (r : Raised) : (s.takeFault w r).stack = s.stack := rfl
@[simp] theorem takeFault_dt (w : Option Word) (r : Raised) : (s.takeFault w r).dt = s.dt := rfl
@[simp] theorem takeFault_st (w : Option Word) (r : Raised) : (s.takeFault w r).st = s.st := rfl
@[simp] theorem takeFault_keys (w : Option Word) (r : Raised) : (s.takeFault w r).keys = s.keys := rfl
@[simp] theorem takeFault_mode (w : Option Word) (r : Raised) : (s.takeFault w r).mode = s.mode := rfl
@[simp] theorem takeFault_fault (w : Option Word) (r : Raised) : (s.takeFault w r).fault = some ⟨r.code, s.pc, w, r.info⟩ := rfl
@[simp] theorem takeFault_fb (w : Option Word) (r : Raised) : (s.takeFault w r).fb = s.fb := rfl
@[simp] theorem takeFault_dirty (w : Option Word) (r : Raised) : (s.takeFault w r).dirty = s.dirty := rfl
@[simp] theorem takeFault_executed (w : Option Word) (r : Raised) : (s.takeFault w r).executed = s.executed := rfl
@[simp] theorem takeFault_cyclesPerTick (w : Option Word) (r : Raised) : (s.takeFault w r).cyclesPerTick = s.cyclesPerTick := rfl
@[simp] theorem takeFault_mem (w : Option Word) (r : Raised) : (s.takeFault w r).mem = s.mem := rfl
@[simp] theorem takeFault_phase (w : Option Word) (r : Raised) : (s.takeFault w r).phase = s.phase := rfl
@[simp] theorem takeFault_playing (w : Option Word) (r : Raised) : (s.takeFault w r).playing = s.playing := rfl
@[simp] theorem takeFault_params (w : Option Word) (r : Raised) : (s.takeFault w r).params = s.params := rfl
@[simp] theorem takeFault_draws (w : Option Word) (r : Raised) : (s.takeFault w r).draws = s.draws := rfl
@[simp] theorem takeFault_outputs (w : Option Word) (r : Raised) : (s.takeFault w r).outputs = s.outputs := rfl

@[simp] theorem emit_v (o : Output) : (s.emit o).v = s.v := rfl
@[simp] theorem emit_i (o : Output) : (s.emit o).i = s.i := rfl
@[simp] theorem emit_pc (o : Output) : (s.emit o).pc = s.pc := rfl
@[simp] theorem emit_stack (o : Output) : (s.emit o).stack = s.stack := rfl
@[simp] theorem emit_dt (o : Output) : (s.emit o).dt = s.dt := rfl
@[simp] theorem emit_st (o : Output) : (s.emit o).st = s.st := rfl
@[simp] theorem emit_keys (o : Output) : (s.emit o).keys = s.keys := rfl
@[simp] theorem emit_mode (o : Output) : (s.emit o).mode = s.mode := rfl
@[simp] theorem emit_fault (o : Output) : (s.emit o).fault = s.fault := rfl
@[simp] theorem emit_fb (o : Output) : (s.emit o).fb = s.fb := rfl
@[simp] theorem emit_dirty (o : Output) : (s.emit o).dirty = s.dirty := rfl
@[simp] theorem emit_executed (o : Output) : (s.emit o).executed = s.executed := rfl
@[simp] theorem emit_cyclesPerTick (o : Output) : (s.emit o).cyclesPerTick = s.cyclesPerTick := rfl
@[simp] theorem emit_mem (o : Output) : (s.emit o).mem = s.mem := rfl
@[simp] theorem emit_phase (o : Output) : (s.emit o).phase = s.phase := rfl
@[simp] theorem emit_playing (o : Output) : (s.emit o).playing = s.playing := rfl
@[simp] theorem emit_params (o : Output) : (s.emit o).params = s.params := rfl
@[simp] theorem emit_draws (o : Output) : (s.emit o).draws = s.draws := rfl
@[simp] theorem emit_outputs (o : Output) : (s.emit o).outputs = s.outputs ++ [o] := rfl

@[simp] theorem presentFrame_v : (s.presentFrame).v = s.v := rfl
@[simp] theorem presentFrame_i : (s.presentFrame).i = s.i := rfl
@[simp] theorem presentFrame_pc : (s.presentFrame).pc = s.pc := rfl
@[simp] theorem presentFrame_stack : (s.presentFrame).stack = s.stack := rfl
@[simp] theorem presentFrame_dt : (s.presentFrame).dt = s.dt := rfl
@[simp] theorem presentFrame_st : (s.presentFrame).st = s.st := rfl
@[simp] theorem presentFrame_keys : (s.presentFrame).keys = s.keys := rfl
@[simp] theorem presentFrame_mode : (s.presentFrame).mode = s.mode := rfl
@[simp] theorem presentFrame_fault : (s.presentFrame).fault = s.fault := rfl
@[simp] theorem presentFrame_fb : (s.presentFrame).fb = s.fb := rfl
@[simp] theorem presentFrame_dirty : (s.presentFrame).dirty = false := rfl
@[simp] theorem presentFrame_executed : (s.presentFrame).executed = s.executed := rfl
@[simp] theorem presentFrame_cyclesPerTick : (s.presentFrame).cyclesPerTick = s.cyclesPerTick := rfl
@[simp] theorem presentFrame_mem : (s.presentFrame).mem = s.mem := rfl
@[simp] theorem presentFrame_phase : (s.presentFrame).phase = s.phase := rfl
@[simp] theorem presentFrame_playing : (s.presentFrame).playing = s.playing := rfl
@[simp] theorem presentFrame_params : (s.presentFrame).params = s.params := rfl
@[simp] theorem presentFrame_draws : (s.presentFrame).draws = s.draws := rfl
@[simp] theorem presentFrame_outputs : (s.presentFrame).outputs = s.outputs ++ [.frameComplete s.frameReport] := rfl

@[simp] theorem clearReport_v : (s.clearReport).v = s.v := rfl
@[simp] theorem clearReport_i : (s.clearReport).i = s.i := rfl
@[simp] theorem clearReport_pc : (s.clearReport).pc = s.pc := rfl
@[simp] theorem clearReport_stack : (s.clearReport).stack = s.stack := rfl
@[simp] theorem clearReport_dt : (s.clearReport).dt = s.dt := rfl
@[simp] theorem clearReport_st : (s.clearReport).st = s.st := rfl
@[simp] theorem clearReport_keys : (s.clearReport).keys = s.keys := rfl
@[simp] theorem clearReport_mode : (s.clearReport).mode = s.mode := rfl
@[simp] theorem clearReport_fault : (s.clearReport).fault = s.fault := rfl
@[simp] theorem clearReport_fb : (s.clearReport).fb = s.fb := rfl
@[simp] theorem clearReport_dirty : (s.clearReport).dirty = s.dirty := rfl
@[simp] theorem clearReport_executed : (s.clearReport).executed = [] := rfl
@[simp] theorem clearReport_cyclesPerTick : (s.clearReport).cyclesPerTick = s.cyclesPerTick := rfl
@[simp] theorem clearReport_mem : (s.clearReport).mem = s.mem := rfl
@[simp] theorem clearReport_phase : (s.clearReport).phase = s.phase := rfl
@[simp] theorem clearReport_playing : (s.clearReport).playing = s.playing := rfl
@[simp] theorem clearReport_params : (s.clearReport).params = s.params := rfl
@[simp] theorem clearReport_draws : (s.clearReport).draws = s.draws := rfl
@[simp] theorem clearReport_outputs : (s.clearReport).outputs = s.outputs := rfl

end

end Sys2Proof.Machine
end

