-- ==== Sys2Proof/Laws/Memory.lean ====
section
/-! SUPPORT. Memory: what a write leaves at every address, and that it keeps the canonical form. -/

namespace Sys2Proof.Machine

open Sys2Proof.Config

variable {font : Vector Byte 80} {m : List Host.Cell} {a b : Nat} {v : Byte}

theorem Memory.read_nil : Memory.read font [] a = Memory.unlisted font a := rfl

/-- An address below every listed one reads as unlisted. -/
theorem Memory.read_of_lt (h : ∀ c ∈ m, a < c.1) : Memory.read font m a = Memory.unlisted font a := by
  induction m with
  | nil => rfl
  | cons c m ih =>
    have hc : a < c.1 := h c (by simp)
    simp [Memory.read, Nat.ne_of_lt hc, ih fun d hd => h d (by simp [hd])]

theorem Memory.read_list (h : ∀ c ∈ m, a < c.1) :
    Memory.read font (Memory.list font a v m) b = if b = a then v else Memory.read font m b := by
  unfold Memory.list
  split
  · next hv =>
    split
    · next hb => subst hb; rw [Memory.read_of_lt h, hv]
    · rfl
  · rfl

/-- Reading after a write: the written byte at its address, the old one everywhere else. -/
theorem Memory.read_write (h : m.Pairwise fun c d => c.1 < d.1) :
    Memory.read font (Memory.write font m a v) b = if b = a then v else Memory.read font m b := by
  induction m with
  | nil => exact Memory.read_list (by simp)
  | cons c m ih =>
    obtain ⟨hc, hm⟩ := List.pairwise_cons.mp h
    unfold Memory.write
    split
    · next hlt =>
      exact Memory.read_list fun d hd => by
        rcases List.mem_cons.mp hd with rfl | hd
        · exact hlt
        · exact Nat.lt_trans hlt (hc d hd)
    · split
      · next heq =>
        subst heq
        rw [Memory.read_list hc]
        simp only [Memory.read]
        split <;> rfl
      · next hne =>
        simp only [Memory.read, ih hm]
        split
        · next hb => subst hb; rw [if_neg (Ne.symm hne)]
        · rfl

/-- A cell of a written memory is the written one or an old one of another address. -/
theorem Memory.mem_write {c : Host.Cell} (h : c ∈ Memory.write font m a v) :
    (c = (a, v) ∧ v ≠ Memory.unlisted font a) ∨ c ∈ m := by
  have list_case : ∀ n : List Host.Cell, c ∈ Memory.list font a v n →
      (c = (a, v) ∧ v ≠ Memory.unlisted font a) ∨ c ∈ n := by
    intro n hn
    unfold Memory.list at hn
    split at hn
    · exact .inr hn
    · next hv => exact (List.mem_cons.mp hn).imp_left fun e => ⟨e, hv⟩
  induction m with
  | nil => exact list_case [] h
  | cons d m ih =>
    unfold Memory.write at h
    split at h
    · exact list_case _ h
    · split at h
      · exact (list_case _ h).imp_right (List.mem_cons_of_mem d)
      · rcases List.mem_cons.mp h with rfl | h
        · exact .inr (by simp)
        · exact (ih h).imp_right (List.mem_cons_of_mem d)

theorem Memory.write_rising (h : m.Pairwise fun c d => c.1 < d.1) :
    (Memory.write font m a v).Pairwise fun c d => c.1 < d.1 := by
  have list_case : ∀ n : List Host.Cell, (∀ c ∈ n, a < c.1) → (n.Pairwise fun c d => c.1 < d.1) →
      (Memory.list font a v n).Pairwise fun c d => c.1 < d.1 := by
    intro n hlt hn
    unfold Memory.list
    split
    · exact hn
    · exact List.pairwise_cons.mpr ⟨hlt, hn⟩
  induction m with
  | nil => exact list_case [] (by simp) .nil
  | cons d m ih =>
    obtain ⟨hd, hm⟩ := List.pairwise_cons.mp h
    unfold Memory.write
    split
    · next hlt =>
      refine list_case _ (fun c hc => ?_) h
      rcases List.mem_cons.mp hc with rfl | hc
      · exact hlt
      · exact Nat.lt_trans hlt (hd c hc)
    · next hge =>
      split
      · next heq => exact list_case _ (fun c hc => heq ▸ hd c hc) hm
      · next hne =>
        refine List.pairwise_cons.mpr ⟨fun c hc => ?_, ih hm⟩
        rcases Memory.mem_write hc with ⟨rfl, -⟩ | hc
        · omega
        · exact hd c hc

/-- A write inside the address space keeps memory in canonical form. -/
theorem Memory.write_wf (h : Memory.wf font m) (ha : a < memSize) : Memory.wf font (Memory.write font m a v) := by
  refine ⟨Memory.write_rising h.1, fun c hc => ?_⟩
  rcases Memory.mem_write hc with ⟨rfl, hv⟩ | hc
  · exact ⟨ha, hv⟩
  · exact h.2 c hc

/-! ## The same, in a state -/

section
variable {s : State}

theorem readByte_writeByte (h : Memory.wf s.params.font s.mem) :
    (s.writeByte a v).readByte b = if b = a then v else s.readByte b :=
  Memory.read_write h.1

theorem writeBytes_eq_self_but_mem (a : Nat) (bs : List Byte) (s : State) :
    s.writeBytes a bs = { s with mem := (s.writeBytes a bs).mem } := by
  induction bs generalizing s a with
  | nil => rfl
  | cons v bs ih => rw [State.writeBytes, ih]; rfl

/-- A run of writes inside the address space keeps memory in canonical form. -/
theorem writeBytes_wf {bs : List Byte} (h : Memory.wf s.params.font s.mem) (ha : a + bs.length ≤ memSize) :
    Memory.wf s.params.font (s.writeBytes a bs).mem := by
  induction bs generalizing s a with
  | nil => exact h
  | cons v bs ih =>
    simp only [List.length_cons] at ha
    have := ih (s := s.writeByte a v) (a := a + 1) (Memory.write_wf h (by omega)) (by omega)
    exact this

/-- What a run of writes leaves at every address: its own bytes from a on, the old ones elsewhere. -/
theorem readByte_writeBytes {bs : List Byte} (h : Memory.wf s.params.font s.mem) (ha : a + bs.length ≤ memSize) :
    (s.writeBytes a bs).readByte b =
      if hb : a ≤ b ∧ b - a < bs.length then bs[b - a]'hb.2 else s.readByte b := by
  induction bs generalizing s a with
  | nil => simp [State.writeBytes]
  | cons v bs ih =>
    simp only [List.length_cons] at ha
    have hw : Memory.wf (s.writeByte a v).params.font (s.writeByte a v).mem := Memory.write_wf h (by omega)
    rw [State.writeBytes, ih hw (by omega), readByte_writeByte h]
    by_cases h1 : a + 1 ≤ b ∧ b - (a + 1) < bs.length
    · have h2 : a ≤ b ∧ b - a < (v :: bs).length := by simp only [List.length_cons]; omega
      have h3 : b - a = b - (a + 1) + 1 := by omega
      simp [h1, h2, h3]
    · rw [dif_neg h1]
      by_cases hba : b = a
      · subst hba; simp
      · rw [if_neg hba, dif_neg]
        simp only [List.length_cons]; omega

/-- A cell a run of writes leaves is one of its own addresses or an old cell. -/
theorem mem_writeBytes {bs : List Byte} {c : Host.Cell} (h : c ∈ (s.writeBytes a bs).mem) :
    (a ≤ c.1 ∧ c.1 < a + bs.length) ∨ c ∈ s.mem := by
  induction bs generalizing s a with
  | nil => exact .inr h
  | cons v bs ih =>
    simp only [List.length_cons]
    rcases ih h with h | h
    · exact .inl (by omega)
    · rcases Memory.mem_write h with ⟨rfl, -⟩ | h
      · exact .inl (by simp)
      · exact .inr h

end

end Sys2Proof.Machine
end

