-- ==== Sys2Proof/Laws/Registers.lean ====
section
/-! SUPPORT. Registers, skips, the stack and the register range: what each operation leaves. -/

namespace Sys2Proof.Machine

variable {s : State} {x y r : Reg} {b : Byte}

@[simp] theorem getV_setV_same : (s.setV x b).getV x = b := by simp [State.getV]

theorem getV_setV_other (h : r ≠ x) : (s.setV x b).getV r = s.getV r := by
  have : x.val ≠ r.val := fun e => h (Fin.ext e.symm)
  simp [State.getV, this]

/-- Reading a register after a write. -/
theorem getV_setV : (s.setV x b).getV r = if r = x then b else s.getV r := by
  split
  · next h => subst h; simp
  · next h => exact getV_setV_other h

theorem getV_setFlag (c : Bool) : (s.setFlag c).getV r = if r = VF then bit c else s.getV r := getV_setV

/-- getV looks at the registers only. -/
theorem getV_congr {t : State} (h : t.v = s.v) : t.getV r = s.getV r := by simp [State.getV, h]

@[simp] theorem getV_advance : s.advance.getV r = s.getV r := rfl
@[simp] theorem getV_report (a : Word) : (s.report a).getV r = s.getV r := rfl
@[simp] theorem getV_drawn : s.drawn.getV r = s.getV r := rfl
@[simp] theorem getV_setI (w : Word) : (s.setI w).getV r = s.getV r := rfl
@[simp] theorem getV_jump (w : Word) : (s.jump w).getV r = s.getV r := rfl
@[simp] theorem getV_push (w : Word) : (s.push w).getV r = s.getV r := rfl
@[simp] theorem getV_writeByte (a : Nat) : (s.writeByte a b).getV r = s.getV r := rfl
@[simp] theorem getV_takeFault (w : Option Word) (f : Raised) : (s.takeFault w f).getV r = s.getV r := rfl

@[simp] theorem readByte_advance (a : Nat) : s.advance.readByte a = s.readByte a := rfl
@[simp] theorem readByte_report (a : Nat) (w : Word) : (s.report w).readByte a = s.readByte a := rfl
@[simp] theorem readByte_setV (a : Nat) : (s.setV x b).readByte a = s.readByte a := rfl
@[simp] theorem readByte_setFlag (a : Nat) (c : Bool) : (s.setFlag c).readByte a = s.readByte a := rfl

@[simp] theorem dataBase_advance : s.advance.dataBase = s.dataBase := rfl
@[simp] theorem dataBase_setV : (s.setV x b).dataBase = s.dataBase := rfl

/-- A skip changes pc only. -/
theorem skipIf_eq (c : Bool) : s.skipIf c = { s with pc := if c then s.pc + 2 else s.pc } := by
  cases c <;> rfl

/-- A pop on a stack that ends in a takes a and leaves the rest. -/
theorem popPc_of_stack {as : List Word} {a : Word} (h : s.stack = as ++ [a]) :
    s.popPc = { s with pc := a, stack := as } := by simp [State.popPc, h]

/-- A pop changes pc and the stack only; the new pc was on the stack or is the old one. -/
theorem popPc_cases : s.popPc = s ∨ ∃ a ∈ s.stack, s.popPc = { s with pc := a, stack := s.stack.dropLast } := by
  unfold State.popPc
  cases h : s.stack.getLast? with
  | none => exact .inl rfl
  | some a => exact .inr ⟨a, List.mem_of_getLast? h, rfl⟩

theorem mem_regsUpTo : r ∈ regsUpTo x ↔ r ≤ x := by simp [regsUpTo]

theorem length_regsUpTo : (regsUpTo x).length = x + 1 := by revert x; decide

/-- Loading registers changes the registers only. -/
theorem loadRegs_eq_self_but_v (base : Nat) (ks : List Reg) (s : State) :
    s.loadRegs base ks = { s with v := (s.loadRegs base ks).v } := by
  induction ks generalizing s with
  | nil => rfl
  | cons k ks ih => rw [State.loadRegs, ih]; rfl

@[simp] theorem readByte_loadRegs (base a : Nat) (ks : List Reg) :
    (s.loadRegs base ks).readByte a = s.readByte a := by rw [loadRegs_eq_self_but_v]; rfl

/-- What loading registers leaves in each register. -/
theorem getV_loadRegs (base : Nat) (ks : List Reg) :
    (s.loadRegs base ks).getV r = if r ∈ ks then s.readByte (base + r) else s.getV r := by
  induction ks generalizing s with
  | nil => simp [State.loadRegs]
  | cons k ks ih =>
    rw [State.loadRegs, ih, readByte_setV, getV_setV]
    by_cases hr : r ∈ ks
    · simp [hr]
    · by_cases hk : r = k
      · subst hk; simp [hr]
      · simp [hr, hk]

end Sys2Proof.Machine
end

