-- ==== Sys2Proof/Laws/Checks.lean ====
section
/-! SUPPORT. The checks an instruction makes before any access, taking a fault, and what an attempted step can answer. -/

namespace Sys2Proof.Machine

open Sys2Proof.Config

theorem find_range'_lowest (base count : Nat) (p : Nat → Bool) :
    ((List.range' base count).find? p = none ↔ ∀ a, base ≤ a → a < base + count → p a = false) ∧
    ∀ a, (List.range' base count).find? p = some a →
      p a = true ∧ base ≤ a ∧ a < base + count ∧ ∀ b, base ≤ b → b < a → p b = false := by
  induction count generalizing base with
  | zero =>
    refine ⟨⟨fun _ a h1 h2 => by omega, fun _ => rfl⟩, fun a h => by simp at h⟩
  | succ n ih =>
    obtain ⟨ih1, ih2⟩ := ih (base + 1)
    rw [List.range'_succ, List.find?_cons]
    cases hp : p base with
    | true =>
      refine ⟨⟨fun h => by simp at h, fun h => ?_⟩, fun a h => ?_⟩
      · have := h base (Nat.le_refl _) (by omega); simp [hp] at this
      · obtain rfl : base = a := by simpa using h
        exact ⟨hp, Nat.le_refl _, by omega, fun b h1 h2 => by omega⟩
    | false =>
      refine ⟨⟨fun h a h1 h2 => ?_, fun h => ih1.mpr fun a h1 h2 => h a (by omega) (by omega)⟩, fun a h => ?_⟩
      · by_cases ha : a = base
        · subst ha; exact hp
        · exact ih1.mp h a (by omega) (by omega)
      · obtain ⟨h1, h2, h3, h4⟩ := ih2 a h
        refine ⟨h1, by omega, by omega, fun b hb1 hb2 => ?_⟩
        by_cases hb : b = base
        · subst hb; exact hp
        · exact h4 b (by omega) hb2

/-- When `checkAccess` passes: every address exists, and none of a write's lies in the font region. -/
theorem checkAccess_none {base count : Nat} {isWrite : Bool} :
    checkAccess base count isWrite = none ↔
      count = 0 ∨ (base + count ≤ memSize ∧ (isWrite = true → fontSize ≤ base)) := by
  obtain ⟨r1, r2⟩ := find_range'_lowest base count fun a => decide (memSize ≤ a)
  obtain ⟨f1, f2⟩ := find_range'_lowest base count fun a => decide (a < fontSize)
  unfold checkAccess addresses
  cases hr : (List.range' base count).find? fun a => decide (memSize ≤ a) with
  | some a =>
    obtain ⟨h1, h2, h3, -⟩ := r2 a hr
    have : memSize ≤ a := of_decide_eq_true h1
    simp only [reduceCtorEq, false_iff]
    omega
  | none =>
    have h0 := r1.mp hr
    have hmem : count = 0 ∨ base + count ≤ memSize := by
      rcases Nat.eq_zero_or_pos count with h | h
      · exact .inl h
      · have := of_decide_eq_false (h0 (base + count - 1) (by omega) (by omega))
        exact .inr (by omega)
    cases isWrite with
    | false => simpa using hmem
    | true =>
      simp only [if_true, Option.map_eq_none_iff, forall_const]
      rw [f1]
      constructor
      · intro h
        rcases Nat.eq_zero_or_pos count with h' | h'
        · exact .inl h'
        · have := of_decide_eq_false (h base (Nat.le_refl _) (by omega))
          omega
      · rintro (h | ⟨-, h⟩) a h1 h2
        · omega
        · exact decide_eq_false (by omega)

/-- When `checkAccess` raises MEM_RANGE: the lowest address of the access that does not exist. -/
theorem checkAccess_memRange {base count : Nat} {isWrite : Bool} (h : memSize < base + count) (hc : 0 < count) :
    checkAccess base count isWrite = some ⟨.memRange, some (max base memSize)⟩ := by
  obtain ⟨r1, r2⟩ := find_range'_lowest base count fun a => decide (memSize ≤ a)
  unfold checkAccess addresses
  cases hr : (List.range' base count).find? fun a => decide (memSize ≤ a) with
  | none =>
    have := of_decide_eq_false (r1.mp hr (base + count - 1) (by omega) (by omega))
    omega
  | some a =>
    obtain ⟨h1, h2, h3, h4⟩ := r2 a hr
    have h1 : memSize ≤ a := of_decide_eq_true h1
    have ha : a = max base memSize := by
      by_cases hb : max base memSize < a
      · have := of_decide_eq_false (h4 (max base memSize) (by omega) hb)
        omega
      · omega
    rw [← ha]

/-- When `checkAccess` raises FONT_WRITE: a write whose addresses all exist and whose first lies in the font region. -/
theorem checkAccess_fontWrite {base count : Nat} (h : base + count ≤ memSize) (hc : 0 < count) (hf : base < fontSize) :
    checkAccess base count true = some ⟨.fontWrite, some base⟩ := by
  obtain ⟨r1, -⟩ := find_range'_lowest base count fun a => decide (memSize ≤ a)
  unfold checkAccess addresses
  rw [r1.mpr fun a _ ha => decide_eq_false (by omega)]
  obtain ⟨n, rfl⟩ : ∃ n, count = n + 1 := ⟨count - 1, by omega⟩
  simp [List.range'_succ, hf]

/-- `checkAccess` raises MEM_RANGE or FONT_WRITE only (R120). -/
theorem checkAccess_code {base count : Nat} {isWrite : Bool} {r : Raised} (h : checkAccess base count isWrite = some r) :
    r.code = .memRange ∨ r.code = .fontWrite := by
  unfold checkAccess at h
  split at h
  · simp only [Option.some.injEq] at h; subst h; exact .inl rfl
  · split at h
    · obtain ⟨a, -, rfl⟩ := Option.map_eq_some_iff.mp h
      exact .inr rfl
    · cases h

/-- What an attempted step can answer: the fault its check raises, with nothing else changed, or the completed step. -/
theorem attempt_cases (s : State) (i : Instr) (check : Option Raised) (effect : State → State) :
    (∃ r, check = some r ∧ s.attempt i check effect = .next (s.takeFault (some (encode i)) r)) ∨
    (check = none ∧ s.attempt i check effect = .next (s.retired effect)) := by
  cases check with
  | some r => exact .inl ⟨r, rfl, rfl⟩
  | none => exact .inr ⟨rfl, rfl⟩

@[simp] theorem attempt_none (s : State) (i : Instr) (effect : State → State) :
    s.attempt i none effect = .next (s.retired effect) := rfl

@[simp] theorem attempt_some (s : State) (i : Instr) (r : Raised) (effect : State → State) :
    s.attempt i (some r) effect = .next (s.takeFault (some (encode i)) r) := rfl

/-- The fetch: the word of the two bytes at pc where both exist, FETCH_RANGE otherwise (R53). -/
theorem fetch_ok {s : State} (h : s.pc.toNat ≤ 0xFFE) :
    s.fetch = .ok (wordOfBytes (s.readByte s.pc.toNat) (s.readByte (s.pc.toNat + 1))) := by
  unfold State.fetch memSize
  rw [if_neg (by omega)]

theorem fetch_error {s : State} (h : 0xFFE < s.pc.toNat) : s.fetch = .error ⟨.fetchRange, some s.pc.toNat⟩ := by
  unfold State.fetch memSize
  rw [if_pos (by omega)]

/-- What the engine's step can answer: nothing, when it is not enabled; FETCH_RANGE; or the decoded instruction's step. -/
theorem engineStep_cases (s : State) :
    (s.stepEnabled = false ∧ engineStep s = .next s) ∨
    (s.stepEnabled = true ∧ 0xFFE < s.pc.toNat ∧
      engineStep s = .next (s.takeFault none ⟨.fetchRange, some s.pc.toNat⟩)) ∨
    (s.stepEnabled = true ∧ s.pc.toNat ≤ 0xFFE ∧
      engineStep s = exec (decode (wordOfBytes (s.readByte s.pc.toNat) (s.readByte (s.pc.toNat + 1)))) s) := by
  unfold engineStep
  cases he : s.stepEnabled with
  | false => exact .inl ⟨rfl, rfl⟩
  | true =>
    rcases Nat.lt_or_ge 0xFFE s.pc.toNat with h | h
    · exact .inr (.inl ⟨rfl, h, by rw [fetch_error h]; rfl⟩)
    · exact .inr (.inr ⟨rfl, h, by rw [fetch_ok h]; rfl⟩)

theorem stepEnabled_iff {s : State} : s.stepEnabled = true ↔ s.fault = none ∧ s.mode = .running := by
  simp [State.stepEnabled]

end Sys2Proof.Machine
end

