-- ==== Sys2Proof/Laws/Decode.lean ====
section
/-! SUPPORT. The fields of a word in each format, and the opcode map's masks as tests on fields. -/

namespace Sys2Proof

variable {op low : BitVec 4} {nnn : Addr} {x y : Reg} {nn : Byte} {w v : Word}

/-! ## The bits of each format (R66) -/

theorem getLsbD_formatA (j : Nat) :
    (formatA op nnn).getLsbD j = if j < 12 then nnn.getLsbD j else op.getLsbD (j - 12) :=
  BitVec.getLsbD_append

theorem getLsbD_formatXB (j : Nat) : (formatXB op x nn).getLsbD j =
    if j < 12 then (if j < 8 then nn.getLsbD j else (nibble x).getLsbD (j - 8)) else op.getLsbD (j - 12) :=
  BitVec.getLsbD_append.trans (by rw [BitVec.getLsbD_append])

theorem getLsbD_formatXY (j : Nat) : (formatXY op x y low).getLsbD j =
    if j < 12 then
      (if j < 8 then (if j < 4 then low.getLsbD j else (nibble y).getLsbD (j - 4)) else (nibble x).getLsbD (j - 8))
    else op.getLsbD (j - 12) :=
  BitVec.getLsbD_append.trans (by rw [BitVec.getLsbD_append, BitVec.getLsbD_append])

theorem formatX_eq : formatX op x nn = formatXB op x nn := rfl

/-! ## The fields of each format -/

@[simp] theorem toFin_nibble : (nibble x).toFin = x := rfl

theorem fieldX_eq_of_nibble (h : w.extractLsb' 8 4 = nibble x) : fieldX w = x := by rw [fieldX, h]; rfl

theorem fieldY_eq_of_nibble (h : w.extractLsb' 4 4 = nibble x) : fieldY w = x := by rw [fieldY, h]; rfl

@[simp] theorem fieldOp_formatA : fieldOp (formatA op nnn) = op := by
  refine BitVec.eq_of_getLsbD_eq fun i hi => ?_
  simp [fieldOp, getLsbD_formatA, hi]

@[simp] theorem fieldNNN_formatA : fieldNNN (formatA op nnn) = nnn := by
  refine BitVec.eq_of_getLsbD_eq fun i hi => ?_
  simp [fieldNNN, getLsbD_formatA, hi]

@[simp] theorem fieldOp_formatXB : fieldOp (formatXB op x nn) = op := by
  refine BitVec.eq_of_getLsbD_eq fun i hi => ?_
  simp [fieldOp, getLsbD_formatXB, hi]

@[simp] theorem fieldNN_formatXB : fieldNN (formatXB op x nn) = nn := by
  refine BitVec.eq_of_getLsbD_eq fun i hi => ?_
  simp [fieldNN, getLsbD_formatXB, hi, show i < 12 by omega]

@[simp] theorem fieldX_formatXB : fieldX (formatXB op x nn) = x := by
  refine fieldX_eq_of_nibble (BitVec.eq_of_getLsbD_eq fun i hi => ?_)
  simp [getLsbD_formatXB, hi, show 8 + i < 12 by omega]

@[simp] theorem fieldOp_formatXY : fieldOp (formatXY op x y low) = op := by
  refine BitVec.eq_of_getLsbD_eq fun i hi => ?_
  simp [fieldOp, getLsbD_formatXY, hi]

@[simp] theorem fieldX_formatXY : fieldX (formatXY op x y low) = x := by
  refine fieldX_eq_of_nibble (BitVec.eq_of_getLsbD_eq fun i hi => ?_)
  simp [getLsbD_formatXY, hi, show 8 + i < 12 by omega]

@[simp] theorem fieldY_formatXY : fieldY (formatXY op x y low) = y := by
  refine fieldY_eq_of_nibble (BitVec.eq_of_getLsbD_eq fun i hi => ?_)
  simp [getLsbD_formatXY, hi, show 4 + i < 12 by omega, show 4 + i < 8 by omega]

@[simp] theorem fieldLow_formatXY : fieldLow (formatXY op x y low) = low := by
  refine BitVec.eq_of_getLsbD_eq fun i hi => ?_
  simp [fieldLow, getLsbD_formatXY, hi, show i < 12 by omega, show i < 8 by omega]

/-! ## A word is its fields -/

/-- The bits of the fields, from the word's. -/
theorem getLsbD_nibble_fieldX (j : Nat) : (nibble (fieldX w)).getLsbD j = (decide (j < 4) && w.getLsbD (8 + j)) := by
  show (w.extractLsb' 8 4).getLsbD j = _
  simp

theorem getLsbD_nibble_fieldY (j : Nat) : (nibble (fieldY w)).getLsbD j = (decide (j < 4) && w.getLsbD (4 + j)) := by
  show (w.extractLsb' 4 4).getLsbD j = _
  simp

theorem formatA_fields : formatA (fieldOp w) (fieldNNN w) = w := by
  refine BitVec.eq_of_getLsbD_eq fun i hi => ?_
  rw [getLsbD_formatA]
  interval_cases i <;> simp [fieldOp, fieldNNN]

theorem formatXB_fields : formatXB (fieldOp w) (fieldX w) (fieldNN w) = w := by
  refine BitVec.eq_of_getLsbD_eq fun i hi => ?_
  rw [getLsbD_formatXB, getLsbD_nibble_fieldX]
  interval_cases i <;> simp [fieldOp, fieldNN]

theorem formatXY_fields : formatXY (fieldOp w) (fieldX w) (fieldY w) (fieldLow w) = w := by
  refine BitVec.eq_of_getLsbD_eq fun i hi => ?_
  rw [getLsbD_formatXY, getLsbD_nibble_fieldX, getLsbD_nibble_fieldY]
  interval_cases i <;> simp [fieldOp, fieldLow]

/-! ## The masks of the opcode map (R67) -/

theorem and_maskOp : w &&& 0xF000 = formatA (fieldOp w) 0 := by
  refine BitVec.eq_of_getLsbD_eq fun i hi => ?_
  rw [getLsbD_formatA]
  interval_cases i <;> simp [fieldOp]

theorem and_maskOpLow : w &&& 0xF00F = formatXY (fieldOp w) 0 0 (fieldLow w) := by
  refine BitVec.eq_of_getLsbD_eq fun i hi => ?_
  rw [getLsbD_formatXY]
  interval_cases i <;> simp [fieldOp, fieldLow, nibble]

theorem and_maskOpByte : w &&& 0xF0FF = formatXB (fieldOp w) 0 (fieldNN w) := by
  refine BitVec.eq_of_getLsbD_eq fun i hi => ?_
  rw [getLsbD_formatXB]
  interval_cases i <;> simp [fieldOp, fieldNN, nibble]

/-- The mask 0xF000 tests the op field. -/
theorem selects_op {b : Word → Instr} (hv : v = formatA (fieldOp v) 0) :
    Row.selects ⟨v, 0xF000, b⟩ w = (fieldOp w == fieldOp v) := by
  rw [Row.selects, and_maskOp, Bool.eq_iff_iff, beq_iff_eq, beq_iff_eq]
  exact ⟨fun (h : _ = v) => by rw [← h, fieldOp_formatA], fun h => by rw [h]; exact hv.symm⟩

/-- The mask 0xF00F tests the op field and the low nibble. -/
theorem selects_opLow {b : Word → Instr} (hv : v = formatXY (fieldOp v) 0 0 (fieldLow v)) :
    Row.selects ⟨v, 0xF00F, b⟩ w = (fieldOp w == fieldOp v && fieldLow w == fieldLow v) := by
  rw [Row.selects, and_maskOpLow, Bool.eq_iff_iff, beq_iff_eq, Bool.and_eq_true, beq_iff_eq, beq_iff_eq]
  exact ⟨fun (h : _ = v) => by rw [← h, fieldOp_formatXY, fieldLow_formatXY]; exact ⟨rfl, rfl⟩,
    fun h => by rw [h.1, h.2]; exact hv.symm⟩

/-- The mask 0xF0FF tests the op field and the low byte. -/
theorem selects_opByte {b : Word → Instr} (hv : v = formatXB (fieldOp v) 0 (fieldNN v)) :
    Row.selects ⟨v, 0xF0FF, b⟩ w = (fieldOp w == fieldOp v && fieldNN w == fieldNN v) := by
  rw [Row.selects, and_maskOpByte, Bool.eq_iff_iff, beq_iff_eq, Bool.and_eq_true, beq_iff_eq, beq_iff_eq]
  exact ⟨fun (h : _ = v) => by rw [← h, fieldOp_formatXB, fieldNN_formatXB]; exact ⟨rfl, rfl⟩,
    fun h => by rw [h.1, h.2]; exact hv.symm⟩

/-- The mask 0xFFFF tests the whole word: the op field and nnn. -/
theorem selects_word {b : Word → Instr} :
    Row.selects ⟨v, 0xFFFF, b⟩ w = (fieldOp w == fieldOp v && fieldNNN w == fieldNNN v) := by
  have h : w &&& 0xFFFF = w := by simpa using BitVec.and_allOnes (x := w)
  rw [Row.selects, h, Bool.eq_iff_iff, beq_iff_eq, Bool.and_eq_true, beq_iff_eq, beq_iff_eq]
  exact ⟨fun e => by rw [e]; exact ⟨rfl, rfl⟩,
    fun e => by rw [← formatA_fields (w := w), ← formatA_fields (w := v), e.1, e.2]⟩

/-! ## Row selection -/

/-- Two rows conflict when their match values differ on a bit both masks fix, so that no word selects both. -/
abbrev Row.conflicts (a b : Row) : Prop := a.value &&& (a.mask &&& b.mask) ≠ b.value &&& (a.mask &&& b.mask)

theorem Row.not_both_of_conflicts {a b : Row} (h : a.conflicts b) (ha : a.selects w = true) (hb : b.selects w = true) :
    False := by
  refine h ?_
  rw [← beq_iff_eq.mp ha, ← beq_iff_eq.mp hb]
  ext i hi
  simp only [BitVec.getElem_and]
  cases w[i] <;> cases a.mask[i] <;> cases b.mask[i] <;> rfl

theorem opcodeMap_conflicts : opcodeMap.Pairwise Row.conflicts := by decide

theorem find?_eq_of_selects {rows : List Row} (hp : rows.Pairwise Row.conflicts) {r : Row} (hr : r ∈ rows)
    (hs : r.selects w = true) : rows.find? (·.selects w) = some r := by
  induction rows with
  | nil => cases hr
  | cons a rows ih =>
    obtain ⟨ha, hp⟩ := List.pairwise_cons.mp hp
    rw [List.find?_cons]
    rcases List.mem_cons.mp hr with rfl | hr
    · rw [hs]
    · cases h : a.selects w with
      | true => exact (Row.not_both_of_conflicts (ha r hr) h hs).elim
      | false => exact ih hp hr

/-- A word that selects a row decodes by that row. -/
theorem decode_of_selects {r : Row} (hr : r ∈ opcodeMap) (hs : r.selects w = true) : decode w = r.build w := by
  rw [decode, find?_eq_of_selects opcodeMap_conflicts hr hs]

variable {k : Nat} {b : Word → Instr}

/-- A word with the op field of a row that fixes the op field only decodes by that row. -/
theorem decode_of_op (h : opcodeMap[k]? = some ⟨v, 0xF000, b⟩) (hv : v = formatA (fieldOp v) 0)
    (ho : fieldOp w = fieldOp v) : decode w = b w :=
  decode_of_selects (List.mem_of_getElem? h) (by rw [selects_op hv, ho, beq_self_eq_true])

/-- A word with the op field and the low nibble of a row that fixes these decodes by that row. -/
theorem decode_of_opLow (h : opcodeMap[k]? = some ⟨v, 0xF00F, b⟩) (hv : v = formatXY (fieldOp v) 0 0 (fieldLow v))
    (ho : fieldOp w = fieldOp v) (hl : fieldLow w = fieldLow v) : decode w = b w :=
  decode_of_selects (List.mem_of_getElem? h)
    (by rw [selects_opLow hv, ho, hl, beq_self_eq_true, beq_self_eq_true, Bool.and_self])

/-- A word with the op field and the low byte of a row that fixes these decodes by that row. -/
theorem decode_of_opByte (h : opcodeMap[k]? = some ⟨v, 0xF0FF, b⟩) (hv : v = formatXB (fieldOp v) 0 (fieldNN v))
    (ho : fieldOp w = fieldOp v) (hl : fieldNN w = fieldNN v) : decode w = b w :=
  decode_of_selects (List.mem_of_getElem? h)
    (by rw [selects_opByte hv, ho, hl, beq_self_eq_true, beq_self_eq_true, Bool.and_self])

/-- A word that selects no row decodes to NOP. -/
theorem decode_of_selects_none (h : ∀ r ∈ opcodeMap, r.selects w = false) : decode w = .nop w := by
  rw [decode, List.find?_eq_none.mpr fun r hr => by simp [h r hr]]

/-- What decoding can answer: a row the word selects, or NOP where it selects none. -/
theorem decode_cases (w : Word) :
    (∃ r ∈ opcodeMap, r.selects w = true ∧ decode w = r.build w) ∨
    ((∀ r ∈ opcodeMap, r.selects w = false) ∧ decode w = .nop w) := by
  by_cases h : ∃ r ∈ opcodeMap, r.selects w = true
  · obtain ⟨r, hr, hs⟩ := h
    exact .inl ⟨r, hr, hs, decode_of_selects hr hs⟩
  · have h : ∀ r ∈ opcodeMap, r.selects w = false := fun r hr => by
      simpa using fun hs => h ⟨r, hr, hs⟩
    exact .inr ⟨h, decode_of_selects_none h⟩

end Sys2Proof
end

