-- ==== Sys2Proof/Laws/Framebuffer.lean ====
section
/-! SUPPORT. The framebuffer: what a flip does to every pixel, and that it keeps the list rising. -/

namespace Sys2Proof.Machine

variable {p q : Nat} {fb : List Nat}

/-- A flip changes exactly its own pixel. -/
theorem mem_flip (h : fb.Pairwise (· < ·)) : q ∈ Framebuffer.flip p fb ↔ if q = p then q ∉ fb else q ∈ fb := by
  induction fb with
  | nil => simp [Framebuffer.flip]
  | cons a as ih =>
    obtain ⟨ha, has⟩ := List.pairwise_cons.mp h
    unfold Framebuffer.flip
    by_cases hlt : p < a
    · rw [if_pos hlt]
      have hp : p ∉ a :: as := fun hm => by
        rcases List.mem_cons.mp hm with rfl | hm
        · omega
        · have := ha p hm; omega
      by_cases hq : q = p
      · subst hq; simp [hp]
      · simp [hq]
    · rw [if_neg hlt]
      by_cases heq : p = a
      · subst heq
        have hp : p ∉ as := fun hm => Nat.lt_irrefl _ (ha p hm)
        by_cases hq : q = p
        · subst hq; simp [hp]
        · simp [hq]
      · rw [if_neg heq, List.mem_cons, ih has]
        by_cases hq : q = p
        · subst hq; simp [heq]
        · simp [hq]

theorem flip_rising (h : fb.Pairwise (· < ·)) : (Framebuffer.flip p fb).Pairwise (· < ·) := by
  induction fb with
  | nil => simp [Framebuffer.flip]
  | cons a as ih =>
    obtain ⟨ha, has⟩ := List.pairwise_cons.mp h
    unfold Framebuffer.flip
    split
    · next hlt =>
      refine List.pairwise_cons.mpr ⟨fun b hb => ?_, h⟩
      rcases List.mem_cons.mp hb with rfl | hb
      · exact hlt
      · exact Nat.lt_trans hlt (ha b hb)
    · next hge =>
      split
      · exact has
      · next hne =>
        refine List.pairwise_cons.mpr ⟨fun b hb => ?_, ih has⟩
        have := (mem_flip has).mp hb
        by_cases hb' : b = p
        · omega
        · exact ha b (by simpa [hb'] using this)

/-- A flip inside the grid keeps a framebuffer well formed. -/
theorem flip_wf {w h : Nat} (hw : Framebuffer.wf w h fb) (hp : p < w * h) : Framebuffer.wf w h (Framebuffer.flip p fb) := by
  refine ⟨flip_rising hw.1, fun q hq => ?_⟩
  have := (mem_flip hw.1).mp hq
  by_cases h' : q = p
  · omega
  · exact hw.2 q (by simpa [h'] using this)

/-- Two rising lists with the same members are equal: a framebuffer is its set of pixels. -/
theorem rising_ext {l₁ l₂ : List Nat} (h₁ : l₁.Pairwise (· < ·)) (h₂ : l₂.Pairwise (· < ·))
    (h : ∀ q, q ∈ l₁ ↔ q ∈ l₂) : l₁ = l₂ :=
  List.Perm.eq_of_pairwise (fun _ _ _ _ hab hba => absurd hab (Nat.lt_asymm hba)) h₁ h₂
    ((List.perm_ext_iff_of_nodup (h₁.imp Nat.ne_of_lt) (h₂.imp Nat.ne_of_lt)).mpr h)

/-- A blit sets exactly the pixels whose old state and number of hits have an odd sum. -/
theorem mem_blit {ps : List Nat} {c : Bool} (h : fb.Pairwise (· < ·)) :
    q ∈ (Framebuffer.blit ps fb c).1 ↔ (if ps.count q % 2 = 1 then q ∉ fb else q ∈ fb) := by
  induction ps generalizing fb c with
  | nil => simp [Framebuffer.blit]
  | cons p ps ih =>
    rw [Framebuffer.blit, ih (flip_rising h), mem_flip h, List.count_cons]
    by_cases hq : q = p
    · subst hq
      by_cases hc : ps.count q % 2 = 1
      · simp [hc, show (ps.count q + 1) % 2 = 0 by omega]
      · simp [show ps.count q % 2 = 0 by omega, show (ps.count q + 1) % 2 = 1 by omega]
    · simp [hq, Ne.symm hq]

/-- A blit collides when a set pixel is hit, or a clear one is hit twice. -/
theorem blit_collides {ps : List Nat} {c : Bool} (h : fb.Pairwise (· < ·)) :
    (Framebuffer.blit ps fb c).2 = true ↔ c = true ∨ ∃ q, (if q ∈ fb then 1 else 2) ≤ ps.count q := by
  induction ps generalizing fb c with
  | nil =>
    refine ⟨.inl, fun h' => h'.elim id fun ⟨q, hq⟩ => ?_⟩
    rw [List.count_nil] at hq
    split at hq <;> omega
  | cons p ps ih =>
    rw [Framebuffer.blit, ih (flip_rising h), Bool.or_eq_true, List.contains_iff_mem, or_assoc]
    refine or_congr_right ⟨?_, ?_⟩
    · rintro (hp | ⟨q, hq⟩)
      · exact ⟨p, by rw [if_pos hp, List.count_cons_self]; omega⟩
      · refine ⟨q, ?_⟩
        simp only [mem_flip h] at hq
        by_cases e : q = p
        · subst e
          rw [List.count_cons_self]
          split <;> split at hq <;> simp_all
        · rw [List.count_cons_of_ne (Ne.symm e)]
          simpa [e] using hq
    · rintro ⟨q, hq⟩
      by_cases e : q = p
      · subst e
        rw [List.count_cons_self] at hq
        by_cases hm : q ∈ fb
        · exact .inl hm
        · refine .inr ⟨q, ?_⟩
          rw [if_neg hm] at hq
          rw [if_pos ((mem_flip h).mpr (by simpa using hm))]
          omega
      · rw [List.count_cons_of_ne (Ne.symm e)] at hq
        exact .inr ⟨q, by simpa [mem_flip h, e] using hq⟩

theorem blit_wf {w h : Nat} {ps : List Nat} {c : Bool} (hw : Framebuffer.wf w h fb) (hp : ∀ p ∈ ps, p < w * h) :
    Framebuffer.wf w h (Framebuffer.blit ps fb c).1 := by
  induction ps generalizing fb c with
  | nil => exact hw
  | cons p ps ih => exact ih (flip_wf hw (hp p (by simp))) fun q hq => hp q (by simp [hq])

/-- The pixel a sprite bit falls on lies in the grid. -/
theorem spritePixel_lt {w h x0 y0 row col : Nat} (hw : 0 < w) (hh : 0 < h) : spritePixel w h x0 y0 row col < w * h := by
  have h1 : (y0 + row) % h < h := Nat.mod_lt _ hh
  have h2 : (x0 + col) % w < w := Nat.mod_lt _ hw
  calc (y0 + row) % h * w + (x0 + col) % w < (y0 + row) % h * w + w := by omega
    _ = ((y0 + row) % h + 1) * w := by rw [Nat.add_mul, Nat.one_mul]
    _ ≤ h * w := Nat.mul_le_mul_right w h1
    _ = w * h := Nat.mul_comm h w

theorem spritePixels_lt {w h x0 y0 row : Nat} {bytes : List Byte} (hw : 0 < w) (hh : 0 < h) :
    ∀ p ∈ spritePixels w h x0 y0 row bytes, p < w * h := by
  induction bytes generalizing row with
  | nil => simp [spritePixels]
  | cons b bs ih =>
    intro p hp
    rcases List.mem_append.mp hp with hp | hp
    · obtain ⟨col, -, rfl⟩ := List.mem_map.mp hp
      exact spritePixel_lt hw hh
    · exact ih p hp

/-- Drawing changes the framebuffer and the dirty signal only. -/
theorem drawSprite_eq_self_but_fb (s : State) (x0 y0 : Nat) (bytes : List Byte) :
    (s.drawSprite x0 y0 bytes).1 = { s with fb := (s.drawSprite x0 y0 bytes).1.fb, dirty := true } := rfl

/-- Drawing keeps the framebuffer well formed. -/
theorem drawSprite_wf {s : State} {x0 y0 : Nat} {bytes : List Byte} (hp : s.params.ok)
    (hw : Framebuffer.wf s.params.fbWidth s.params.fbHeight s.fb) :
    Framebuffer.wf s.params.fbWidth s.params.fbHeight (s.drawSprite x0 y0 bytes).1.fb :=
  blit_wf hw (spritePixels_lt hp.1 hp.2)

end Sys2Proof.Machine
end

