-- ==== Sys2Proof/Laws/Exec.lean ====
section
/-! SUPPORT. Every instruction's step as one attempt: its check, and its effect on the state with pc advanced. From it, what
exec can answer and what it never changes. -/

namespace Sys2Proof.Machine

/-- The check an instruction makes before its effect. -/
def checkOf : Instr → State → Option Raised
  | .ret, s         => retCheck s
  | .call _, s      => callCheck s
  | .addI x, s      => addICheck x s
  | .ldB _, s       => checkAccess s.dataBase 3 true
  | .ldMemVx x, s   => checkAccess s.dataBase (x + 1) true
  | .ldVxMem x, s   => checkAccess s.dataBase (x + 1) false
  | .drw _ _ n, s   => checkAccess s.dataBase n false
  | .skp x, s       => keyCheck x s
  | .sknp x, s      => keyCheck x s
  | _, _            => none

/-- The effect of an instruction. -/
def effectOf : Instr → State → State
  | .cls, t          => t.clearScreen
  | .ret, t          => t.popPc
  | .jp nnn, t       => t.jump (addrWord nnn)
  | .call nnn, t     => (t.push t.pc).jump (addrWord nnn)
  | .seImm x nn, t   => t.skipIf (t.getV x == nn)
  | .sneImm x nn, t  => t.skipIf (t.getV x != nn)
  | .seReg x y, t    => t.skipIf (t.getV x == t.getV y)
  | .sneReg x y, t   => t.skipIf (t.getV x != t.getV y)
  | .ldImm x nn, t   => t.setV x nn
  | .addImm x nn, t  => t.setV x (BitVec.ofNat 8 (exactSum (t.getV x) nn))
  | .ldReg x y, t    => t.setV x (t.getV y)
  | .or x y, t       => t.setV x (t.getV x ||| t.getV y)
  | .and x y, t      => t.setV x (t.getV x &&& t.getV y)
  | .xor x y, t      => t.setV x (t.getV x ^^^ t.getV y)
  | .addReg x y, t   => addRegEffect x y t
  | .sub x y, t      => subEffect x y t
  | .shr x _, t      => shrEffect x t
  | .subn x y, t     => subnEffect x y t
  | .shl x _, t      => shlEffect x t
  | .ldI nnn, t      => t.setI (addrWord nnn)
  | .jpV0 nnn, t     => t.jump (addrWord nnn + (t.getV 0).setWidth 16)
  | .rnd x nn, t     => (t.setV x (t.randByte &&& nn)).drawn
  | .drw x y n, t    => drwEffect x y n t
  | .skp x, t        => t.skipIf (t.isPressed (t.getV x).toNat)
  | .sknp x, t       => t.skipIf (!t.isPressed (t.getV x).toNat)
  | .ldVxDt x, t     => t.setV x t.dt
  | .ldVxK x, t      => { t with mode := .awaitingKey x }
  | .ldDtVx x, t     => { t with dt := t.getV x }
  | .ldStVx x, t     => { t with st := t.getV x }
  | .addI x, t       => t.setI (BitVec.ofNat 16 (t.indexSum x))
  | .ldF x, t        => t.setI (glyphBase (t.getV x))
  | .ldB x, t        => t.writeBytes t.dataBase (decimalDigits (t.getV x))
  | .ldMemVx x, t    => t.writeBytes t.dataBase (t.regBytes x)
  | .ldVxMem x, t    => t.loadRegs t.dataBase (regsUpTo x)
  | .nop _, t        => t

/-- Every instruction's step is one attempt. -/
theorem exec_eq_attempt (i : Instr) (s : State) : exec i s = s.attempt i (checkOf i s) (effectOf i) := by
  cases i <;> rfl

/-- What exec can answer: the fault of its check with nothing else changed, or the completed step. -/
theorem exec_cases (i : Instr) (s : State) :
    (∃ r, checkOf i s = some r ∧ exec i s = .next (s.takeFault (some (encode i)) r)) ∨
    (checkOf i s = none ∧ exec i s = .next (s.retired (effectOf i))) := by
  rw [exec_eq_attempt]; exact attempt_cases ..

/-! ## When each check raises, and what -/

theorem ite_some_eq_some {c : Prop} [Decidable c] {a r : Raised} :
    (if c then some a else none) = some r ↔ c ∧ r = a := by
  by_cases h : c
  · rw [if_pos h, Option.some.injEq]; exact ⟨fun e => ⟨h, e.symm⟩, fun e => e.2.symm⟩
  · rw [if_neg h]; exact ⟨fun e => (nomatch e), fun e => (h e.1).elim⟩

theorem retCheck_eq_some {s : State} {r : Raised} :
    retCheck s = some r ↔ s.stack = [] ∧ r = ⟨.stackUnderflow, none⟩ := by
  rw [retCheck, ite_some_eq_some, List.isEmpty_iff]

theorem callCheck_eq_some {s : State} {r : Raised} :
    callCheck s = some r ↔ s.params.stackLimit = some s.stack.length ∧ r = ⟨.stackOverflow, none⟩ := by
  unfold callCheck
  cases s.params.stackLimit with
  | none => simp
  | some n => simp only [ite_some_eq_some, Option.some.injEq]; rw [eq_comm (a := n)]

theorem addICheck_eq_some {s : State} {x : Reg} {r : Raised} :
    addICheck x s = some r ↔ 0xFFFF < s.indexSum x ∧ r = ⟨.indexOverflow, some (s.indexSum x)⟩ :=
  ite_some_eq_some

theorem keyCheck_eq_some {s : State} {x : Reg} {r : Raised} :
    keyCheck x s = some r ↔ 0xF < (s.getV x).toNat ∧ r = ⟨.keyRange, some (s.getV x).toNat⟩ :=
  ite_some_eq_some

/-- No instruction's check raises FETCH_RANGE (R120). -/
theorem checkOf_code {i : Instr} {s : State} {r : Raised} (h : checkOf i s = some r) : r.code ≠ .fetchRange := by
  have access : ∀ {b c w}, checkAccess b c w = some r → r.code ≠ .fetchRange := fun h => by
    rcases checkAccess_code h with h | h <;> simp [h]
  cases i <;> simp only [checkOf, reduceCtorEq] at h
  case ret => simp [(retCheck_eq_some.mp h).2]
  case call => simp [(callCheck_eq_some.mp h).2]
  case addI => simp [(addICheck_eq_some.mp h).2]
  case skp => simp [(keyCheck_eq_some.mp h).2]
  case sknp => simp [(keyCheck_eq_some.mp h).2]
  all_goals exact access h

/-- What no instruction's effect touches: the keys, the fault latch, the report, the budget, the tick, the host's playing,
the parameters and the outputs (R27, R33, R35, R39, R40). -/
theorem effectOf_keeps (i : Instr) (t : State) :
    (effectOf i t).keys = t.keys ∧ (effectOf i t).fault = t.fault ∧ (effectOf i t).executed = t.executed ∧
    (effectOf i t).cyclesPerTick = t.cyclesPerTick ∧ (effectOf i t).phase = t.phase ∧
    (effectOf i t).playing = t.playing ∧
    (effectOf i t).params = t.params ∧ (effectOf i t).outputs = t.outputs := by
  cases i <;> try exact ⟨rfl, rfl, rfl, rfl, rfl, rfl, rfl, rfl⟩
  all_goals simp only [effectOf, skipIf_eq, and_self]
  · rcases popPc_cases (s := t) with h | ⟨a, -, h⟩ <;> rw [h] <;> simp
  · rw [writeBytes_eq_self_but_mem]; simp
  · rw [loadRegs_eq_self_but_v]; simp

end Sys2Proof.Machine
end

