-- ==== Sys2Proof/Laws/Frames.lean ====
section
/-! SUPPORT. What the frames of Safety.lean come to for the storing and the drawing instructions. -/

namespace Sys2Proof.Machine

open Sys2Proof.Config

/-! ## Storing bytes from I on -/

/-- A completed store of bytes from I on writes those bytes and no others. -/
theorem writesBytes_retired {s : State} {bs : List Byte} (hw : Memory.wf s.params.font s.mem)
    (h : s.i.toNat + bs.length ≤ 0x1000) :
    WritesBytes s.i.toNat bs.length s (s.retired fun t => t.writeBytes t.dataBase bs) ∧
    ∀ k (hk : k < bs.length), (s.retired fun t => t.writeBytes t.dataBase bs).readByte (s.i.toNat + k) = bs[k] := by
  have read : ∀ a, (s.retired fun t => t.writeBytes t.dataBase bs).readByte a =
      (s.advance.writeBytes s.i.toNat bs).readByte a := fun _ => rfl
  refine ⟨⟨?_, fun r _ => ?_, fun a ha => ?_⟩, fun k hk => ?_⟩
  · show (s.advance.writeBytes s.i.toNat bs).report s.pc = _
    rw [writeBytes_eq_self_but_mem]; rfl
  · show ((s.advance.writeBytes s.i.toNat bs).report s.pc).getV r = _
    rw [writeBytes_eq_self_but_mem]; rfl
  · rw [read, readByte_writeBytes (s := s.advance) hw h, dif_neg (by omega)]; rfl
  · rw [read, readByte_writeBytes (s := s.advance) hw h, dif_pos (by omega)]
    simp

/-- The k-th byte LD [I], Vx stores is V[k]. -/
theorem getElem_regBytes {s : State} {x k : Reg} (h : k ≤ x) (hl : k.val < (s.regBytes x).length) :
    (s.regBytes x)[k.val]'hl = s.getV k := by
  have at_k : ∀ x k : Reg, k ≤ x → (regsUpTo x)[k.val]? = some k := by decide
  obtain ⟨_, e⟩ := List.getElem?_eq_some_iff.mp (at_k x k h)
  simp only [State.regBytes, List.getElem_map]
  rw [e]

/-! ## How often a sprite hits a pixel -/

/-- A row-major index names its row and column. -/
theorem pixelIndex_inj {W r c r' c' : Nat} (hc : c < W) (hc' : c' < W) :
    r' * W + c' = r * W + c ↔ r' = r ∧ c' = c := by
  constructor
  · intro h
    have hW : 0 < W := by omega
    have row : ∀ a b, b < W → (a * W + b) / W = a := fun a b hb => by
      rw [Nat.mul_comm, Nat.mul_add_div hW, Nat.div_eq_of_lt hb, Nat.add_zero]
    have e : r' = r := by rw [← row r' c' hc', ← row r c hc, h]
    exact ⟨e, by subst e; omega⟩
  · rintro ⟨rfl, rfl⟩; rfl

/-- The flips of one pixel by the rows from the one given on, counted bit by bit. -/
theorem count_spritePixels_from (s : State) {W H x0 y0 base r c : Nat} (hc : c < W) (n row : Nat) :
    (spritePixels W H x0 y0 row ((List.range' row n).map fun k => s.readByte (base + k))).count (r * W + c) =
    (List.product (List.range' row n) (List.range 8)).countP fun p =>
      (s.readByte (base + p.1)).getLsbD (7 - p.2) && decide ((y0 + p.1) % H = r ∧ (x0 + p.2) % W = c) := by
  induction n generalizing row with
  | zero => simp [spritePixels, List.product]
  | succ n ih =>
    rw [List.range'_succ, List.map_cons, spritePixels, List.count_append, ih,
      show List.product (row :: List.range' (row + 1) n) (List.range 8) =
        (List.range 8).map (fun b => (row, b)) ++ List.product (List.range' (row + 1) n) (List.range 8) from rfl,
      List.countP_append]
    congr 1
    rw [spriteRow, List.count, List.countP_map, List.countP_filter, List.countP_map]
    refine List.countP_congr fun col _ => ?_
    simp only [Function.comp, spritePixel, Bool.and_eq_true, beq_iff_eq, decide_eq_true_eq,
      pixelIndex_inj hc (Nat.mod_lt _ (Nat.zero_lt_of_lt hc))]
    tauto

/-- The blit of a sprite flips each pixel of the grid as often as `spriteHits` says. -/
theorem count_spritePixels {s : State} {x y : Reg} {n r c : Nat} (hc : c < s.params.fbWidth) :
    (spritePixels s.params.fbWidth s.params.fbHeight (s.getV x).toNat (s.getV y).toNat 0
      (s.readBytes s.dataBase n)).count (r * s.params.fbWidth + c) = s.spriteHits x y n r c := by
  simpa [State.readBytes, State.spriteHits, List.range_eq_range'] using
    count_spritePixels_from s (base := s.dataBase) (y0 := (s.getV y).toNat) (H := s.params.fbHeight) (r := r) hc n 0

end Sys2Proof.Machine
end

