-- ==== Sys2Proof/Laws/PerInstr.lean ====
section
/-! SUPPORT. A statement about every instruction as syntax, one lemma per constructor: the op field of its word. -/

namespace Sys2Proof.Laws.OpField

/-- The major opcode of an instruction's row (R67); a NOP's is its word's. -/
def opOf : Instr → BitVec 4
  | .cls | .ret => 0x0
  | .jp _ => 0x1
  | .call _ => 0x2
  | .seImm _ _ => 0x3
  | .sneImm _ _ => 0x4
  | .seReg _ _ => 0x5
  | .ldImm _ _ => 0x6
  | .addImm _ _ => 0x7
  | .ldReg _ _ | .or _ _ | .and _ _ | .xor _ _ | .addReg _ _ | .sub _ _ | .shr _ _ | .subn _ _ | .shl _ _ => 0x8
  | .sneReg _ _ => 0x9
  | .ldI _ => 0xA
  | .jpV0 _ => 0xB
  | .rnd _ _ => 0xC
  | .drw _ _ _ => 0xD
  | .skp _ | .sknp _ => 0xE
  | .ldVxDt _ | .ldVxK _ | .ldDtVx _ | .ldStVx _ | .addI _ | .ldF _ | .ldB _ | .ldMemVx _ | .ldVxMem _ => 0xF
  | .nop w => fieldOp w

/-- The op field of an instruction's word is its row's major opcode (R64, R67). -/
def Statement (i : Instr) : Prop := fieldOp (encode i) = opOf i

theorem cls : Statement .cls := rfl
theorem ret : Statement .ret := rfl
theorem jp (nnn : Addr) : Statement (.jp nnn) := fieldOp_formatA
theorem call (nnn : Addr) : Statement (.call nnn) := fieldOp_formatA
theorem seImm (x : Reg) (nn : Byte) : Statement (.seImm x nn) := fieldOp_formatXB
theorem sneImm (x : Reg) (nn : Byte) : Statement (.sneImm x nn) := fieldOp_formatXB
theorem seReg (x : Reg) (y : Reg) : Statement (.seReg x y) := fieldOp_formatXY
theorem ldImm (x : Reg) (nn : Byte) : Statement (.ldImm x nn) := fieldOp_formatXB
theorem addImm (x : Reg) (nn : Byte) : Statement (.addImm x nn) := fieldOp_formatXB
theorem ldReg (x : Reg) (y : Reg) : Statement (.ldReg x y) := fieldOp_formatXY
theorem or (x : Reg) (y : Reg) : Statement (.or x y) := fieldOp_formatXY
theorem and (x : Reg) (y : Reg) : Statement (.and x y) := fieldOp_formatXY
theorem xor (x : Reg) (y : Reg) : Statement (.xor x y) := fieldOp_formatXY
theorem addReg (x : Reg) (y : Reg) : Statement (.addReg x y) := fieldOp_formatXY
theorem sub (x : Reg) (y : Reg) : Statement (.sub x y) := fieldOp_formatXY
theorem shr (x : Reg) (y : Reg) : Statement (.shr x y) := fieldOp_formatXY
theorem subn (x : Reg) (y : Reg) : Statement (.subn x y) := fieldOp_formatXY
theorem shl (x : Reg) (y : Reg) : Statement (.shl x y) := fieldOp_formatXY
theorem sneReg (x : Reg) (y : Reg) : Statement (.sneReg x y) := fieldOp_formatXY
theorem ldI (nnn : Addr) : Statement (.ldI nnn) := fieldOp_formatA
theorem jpV0 (nnn : Addr) : Statement (.jpV0 nnn) := fieldOp_formatA
theorem rnd (x : Reg) (nn : Byte) : Statement (.rnd x nn) := fieldOp_formatXB
theorem drw (x : Reg) (y : Reg) (n : Fin 16) : Statement (.drw x y n) := fieldOp_formatXY
theorem skp (x : Reg) : Statement (.skp x) := fieldOp_formatXB
theorem sknp (x : Reg) : Statement (.sknp x) := fieldOp_formatXB
theorem ldVxDt (x : Reg) : Statement (.ldVxDt x) := fieldOp_formatXB
theorem ldVxK (x : Reg) : Statement (.ldVxK x) := fieldOp_formatXB
theorem ldDtVx (x : Reg) : Statement (.ldDtVx x) := fieldOp_formatXB
theorem ldStVx (x : Reg) : Statement (.ldStVx x) := fieldOp_formatXB
theorem addI (x : Reg) : Statement (.addI x) := fieldOp_formatXB
theorem ldF (x : Reg) : Statement (.ldF x) := fieldOp_formatXB
theorem ldB (x : Reg) : Statement (.ldB x) := fieldOp_formatXB
theorem ldMemVx (x : Reg) : Statement (.ldMemVx x) := fieldOp_formatXB
theorem ldVxMem (x : Reg) : Statement (.ldVxMem x) := fieldOp_formatXB
theorem nop (w : Word) : Statement (.nop w) := rfl

end Sys2Proof.Laws.OpField
end

