-- ==== Sys2Proof/Laws/Scheduler.lean ====
section
/-! SUPPORT. What the decay, the end of a tick, and the Scheduler's moves come to. -/

namespace Sys2Proof.Machine

variable {s t : State}

/-- A timer counts down as numbers do, stopping at 0. -/
theorem countDown_toNat (b : Byte) : (countDown b).toNat = b.toNat - 1 := by
  unfold countDown
  split
  · bv_omega
  · have : b.toNat = 0 := by omega
    rw [this]; rfl

/-- The decay's beep condition, in terms of ST alone. -/
theorem beeps_iff (b : Byte) : (0 < b.toNat ∧ (countDown b).toNat = 0) ↔ b = 1 := by
  rw [countDown_toNat]
  exact ⟨fun h => by bv_omega, fun h => by subst h; decide⟩

/-- The decay as one update. -/
theorem timerDecay_eq_update : s.timerDecay = { s with
    dt := countDown s.dt, st := countDown s.st, outputs := s.outputs ++ if s.st = 1 then [.beep] else [] } := by
  unfold State.timerDecay
  simp only [beeps_iff]
  by_cases h : s.st = 1
  · rw [if_pos h, if_pos h]; rfl
  · rw [if_neg h, if_neg h, List.append_nil]

/-- The end of a tick as one update: one decay, then the frame of the state it leaves. -/
theorem finishTick_eq_update : s.finishTick = { s with
    dt := countDown s.dt, st := countDown s.st, dirty := false,
    outputs := s.outputs ++ (if s.st = 1 then [.beep] else []) ++ [.frameComplete s.frameReport] } := by
  unfold State.finishTick
  rw [timerDecay_eq_update]
  rfl

/-- A step that is not enabled ends the loop of a tick. -/
theorem tickLoop_of_not_enabled (h : s.stepEnabled = false) (left : Nat) : tickLoop left s = .next s := by
  cases left with
  | zero => rfl
  | succ n => rw [tickLoop, h]; rfl

/-- The loop of a tick goes on from an enabled step. -/
theorem tickLoop_of_enabled (h : s.stepEnabled = true) (e : engineStep s = .next t) (left : Nat) :
    tickLoop (left + 1) s = tickLoop left t := by
  rw [tickLoop, h, e]; rfl

/-! ## The block's moves -/

/-- Between ticks a paused block does not move (R145). -/
theorem step_of_paused (h : s.phase = .between) (hp : s.playing = false) : step s = .next s := by
  simp [step, schedulerStep, tickMove, h, hp]

/-- Between ticks the step of a playing host is the first move of the tick it issues (R136, R140). -/
theorem step_of_playing (h : s.phase = .between) (hp : s.playing = true) : step s = tickMove s.beginTick := by
  simp [step, schedulerStep, h, hp]

/-- While a tick is in progress the step is its next move (R136). -/
theorem step_of_tick (h : s.phase ≠ .between) : step s = tickMove s := by
  simp [step, schedulerStep, h]

/-- A step of the engine inside a tick. -/
theorem step_of_stepping {done : Nat} (h : s.phase = .stepping done) (e : engineStep s = .next t) :
    step s = .next (t.afterStep done) := by
  rw [step_of_tick (by simp [h])]
  simp only [tickMove, h, e]

/-- The last move of a tick. -/
theorem step_of_finishing (h : s.phase = .finishing) : step s = .next { s.finishTick with phase := .between } := by
  rw [step_of_tick (by simp [h])]
  simp only [tickMove, h]

/-- What a tick event begins: nothing in a faulted block, else a tick with its report clear. -/
theorem beginTick_of_fault (h : s.fault ≠ none) : s.beginTick = s :=
  if_pos (Option.isSome_iff_ne_none.mpr h)

theorem beginTick_of_ok (h : s.fault = none) : s.beginTick = { s with executed := [], phase := nextPhase 0 s } :=
  if_neg (by simp [h])

/-- A tick has a further step while the engine runs and the budget is not used up (R136). -/
theorem nextPhase_eq (done : Nat) (s : State) :
    nextPhase done s = if s.mode = .running ∧ done < s.cyclesPerTick then .stepping done else .finishing := by
  unfold nextPhase
  simp only [Bool.and_eq_true, beq_iff_eq, decide_eq_true_eq]

/-- The engine's step answers a next state. -/
theorem engineStep_next (s : State) : ∃ t, engineStep s = .next t := by
  rcases engineStep_cases s with ⟨-, e⟩ | ⟨-, -, e⟩ | ⟨-, -, e⟩
  · exact ⟨_, e⟩
  · exact ⟨_, e⟩
  · rcases exec_cases (decode (wordOfBytes (s.readByte s.pc.toNat) (s.readByte (s.pc.toNat + 1)))) s with
      ⟨r, -, e'⟩ | ⟨-, e'⟩ <;> exact ⟨_, e.trans e'⟩

/-- What a step of the engine leaves alone: the budget, the tick in progress, the host's playing, the parameters, the outputs
and the keys. -/
theorem engineStep_keeps (h : engineStep s = .next t) :
    t.cyclesPerTick = s.cyclesPerTick ∧ t.phase = s.phase ∧ t.playing = s.playing ∧ t.params = s.params ∧
    t.outputs = s.outputs ∧ t.keys = s.keys := by
  rcases engineStep_cases s with ⟨-, e⟩ | ⟨-, -, e⟩ | ⟨-, -, e⟩
  · rw [e] at h; cases h; exact ⟨rfl, rfl, rfl, rfl, rfl, rfl⟩
  · rw [e] at h; cases h; exact ⟨rfl, rfl, rfl, rfl, rfl, rfl⟩
  · rw [e] at h
    generalize decode (wordOfBytes (s.readByte s.pc.toNat) (s.readByte (s.pc.toNat + 1))) = i at h
    rcases exec_cases i s with ⟨r, -, e'⟩ | ⟨-, e'⟩
    · rw [e'] at h; cases h; exact ⟨rfl, rfl, rfl, rfl, rfl, rfl⟩
    · rw [e'] at h; cases h
      obtain ⟨k1, -, -, k4, k5, k6, k7, k8⟩ := effectOf_keeps i s.advance
      exact ⟨k4, k5, k6, k7, k8, k1⟩

/-- A run goes on from a step's next state. -/
theorem run_succ_of_step (h : step s = .next t) (k : Nat) :
    Host.Core.run Sys2Proof.core (k + 1) s = Host.Core.run Sys2Proof.core k t := by
  have of_step : ∀ (M : Host.Core) (s t : M.State), M.step s = .next t → M.run (k + 1) s = M.run k t := by
    intro M s t h
    rw [Host.Core.run, h]
  exact of_step Sys2Proof.core s t h

end Sys2Proof.Machine
end

