-- ==== Sys2Proof/Tests/Slice0.lean ====
section
/-! SUPPORT. The model's own tests. Every expected result is taken from the spec's words: the encodings of R66 and R67, and
the test vectors of 95_test_vectors.md, whose section stands beside each group. -/

namespace Sys2Proof.Tests

open Sys2Proof.Machine

/-! ## Well-formedness: a NOP's word is none that R67 assigns (R70), one test per clause of the check -/

theorem test_wf_refuses_cls_word : (Instr.nop 0x00E0).wellFormed = false := by decide
theorem test_wf_refuses_ret_word : (Instr.nop 0x00EE).wellFormed = false := by decide
theorem test_wf_refuses_jp_word : (Instr.nop 0x1234).wellFormed = false := by decide
theorem test_wf_refuses_se_word : (Instr.nop 0x5120).wellFormed = false := by decide
theorem test_wf_refuses_shl_word : (Instr.nop 0x812E).wellFormed = false := by decide
theorem test_wf_refuses_sne_word : (Instr.nop 0x9120).wellFormed = false := by decide
theorem test_wf_refuses_skp_word : (Instr.nop 0xE39E).wellFormed = false := by decide
theorem test_wf_refuses_ld_word : (Instr.nop 0xF365).wellFormed = false := by decide
theorem test_wf_accepts_unassigned :
    [0x0123, 0x5121, 0x8008, 0x800F, 0x9AB1, 0xE09F, 0xF000, 0xFFFF].all (fun w => (Instr.nop w).wellFormed) = true := by
  decide

/-! ## Decoding: every constructor's word, written out from the layout of R66 and the opcode of R67 -/

theorem test_decode_cls : decode 0b0000000011100000 = .cls := by decide
theorem test_decode_ret : decode 0b0000000011101110 = .ret := by decide
theorem test_decode_jp : decode 0b0001001000110100 = .jp 0x234 := by decide
theorem test_decode_call : decode 0b0010001100000001 = .call 0x301 := by decide
theorem test_decode_seImm : decode 0b0011001101000010 = .seImm 3 0x42 := by decide
theorem test_decode_sneImm : decode 0b0100101110000001 = .sneImm 11 0x81 := by decide
theorem test_decode_seReg : decode 0b0101000100100000 = .seReg 1 2 := by decide
theorem test_decode_ldImm : decode 0b0110000000001010 = .ldImm 0 0x0A := by decide
theorem test_decode_addImm : decode 0b0111000111111111 = .addImm 1 0xFF := by decide
theorem test_decode_ldReg : decode 0b1000000100100000 = .ldReg 1 2 := by decide
theorem test_decode_or : decode 0b1000000100100001 = .or 1 2 := by decide
theorem test_decode_and : decode 0b1000000100100010 = .and 1 2 := by decide
theorem test_decode_xor : decode 0b1000000100100011 = .xor 1 2 := by decide
theorem test_decode_addReg : decode 0b1000000000010100 = .addReg 0 1 := by decide
theorem test_decode_sub : decode 0b1000111100010101 = .sub 15 1 := by decide
theorem test_decode_shr : decode 0b1000001001010110 = .shr 2 5 := by decide
theorem test_decode_subn : decode 0b1000000100100111 = .subn 1 2 := by decide
theorem test_decode_shl : decode 0b1000001100001110 = .shl 3 0 := by decide
theorem test_decode_sneReg : decode 0b1001101010110000 = .sneReg 10 11 := by decide
theorem test_decode_ldI : decode 0b1010001011110000 = .ldI 0x2F0 := by decide
theorem test_decode_jpV0 : decode 0b1011001100000000 = .jpV0 0x300 := by decide
theorem test_decode_rnd : decode 0b1100001100001111 = .rnd 3 0x0F := by decide
theorem test_decode_drw : decode 0b1101000100100101 = .drw 1 2 5 := by decide
theorem test_decode_skp : decode 0b1110001010011110 = .skp 2 := by decide
theorem test_decode_sknp : decode 0b1110001010100001 = .sknp 2 := by decide
theorem test_decode_ldVxDt : decode 0b1111001100000111 = .ldVxDt 3 := by decide
theorem test_decode_ldVxK : decode 0b1111010000001010 = .ldVxK 4 := by decide
theorem test_decode_ldDtVx : decode 0b1111010100010101 = .ldDtVx 5 := by decide
theorem test_decode_ldStVx : decode 0b1111000100011000 = .ldStVx 1 := by decide
theorem test_decode_addI : decode 0b1111001000011110 = .addI 2 := by decide
theorem test_decode_ldF : decode 0b1111011000101001 = .ldF 6 := by decide
theorem test_decode_ldB : decode 0b1111011100110011 = .ldB 7 := by decide
theorem test_decode_ldMemVx : decode 0b1111001001010101 = .ldMemVx 2 := by decide
theorem test_decode_ldVxMem : decode 0b1111000101100101 = .ldVxMem 1 := by decide
theorem test_decode_nop : decode 0b0101000100100001 = .nop 0x5121 := by decide

/-- The words of 95_test_vectors.md 2.1 that decode to NOP. -/
theorem test_decode_nop_words :
    [0x0000, 0x00E1, 0x01EE, 0x0123, 0x5121, 0x8008, 0x800F, 0x9AB1, 0xE09F, 0xF000, 0xFFFF].all
      (fun w => decode w == .nop w) = true := by decide

/-- The bytes of the source's scenario, 60 0A, are LD V0, 10 (R53), and one byte is no instruction. -/
theorem test_decodeBytes : (decodeBytes [0x60, 0x0A, 0x61]).toOption = some (.ldImm 0 10, [0x61]) ∧
    (decodeBytes [0x60]).toOption = none := by decide

theorem test_decodeTableWord : decodeTableWord 16 0x8014 = some (.addReg 0 1) ∧ decodeTableWord 24 0x8014 = none := by
  decide

/-- Lines of the listings of 95_test_vectors.md 3, and an operand that does not fit (R73). -/
theorem test_assemble : assemble "LD" [.reg 0, .num 0xEA] = some 0x60EA ∧ assemble "LD" [.atI, .reg 1] = some 0xF155 ∧
    assemble "DRW" [.reg 0, .reg 1, .num 1] = some 0xD011 ∧ assemble "SHR" [.reg 2] = some 0x8206 ∧
    assemble "DW" [.num 0xFF00] = some 0xFF00 ∧ assemble "LD" [.reg 0, .num 256] = none := by decide

/-! ## Steps -/

/-- Reset, prepared, with a word at 0x200, where pc stands, and a tick begun. -/
def start (w : Word) (prepare : State → State) : State := (prepare State.reset).placeWord w

/-- Whether the machine steps from s to a next state that has the property. -/
def steps (s : State) (p : State → Bool) : Bool :=
  match step s with
  | .next t => p t
  | _ => false

/-- Whether an event answers a next state that has the property. -/
def answers (r : Host.Outcome State Fault Refusal) (p : State → Bool) : Bool :=
  match r with
  | .next t => p t
  | _ => false

/-- Set registers from V0 on. -/
def regs (bs : List Byte) (s : State) : State := (bs.zip (List.finRange 16)).foldl (fun t p => t.setV p.2 p.1) s

/-- Whether the latch holds this record and pc stays at it. -/
def faulted (code : Fault) (pc0 : Word) (word : Option Word) (info : Option Nat) (t : State) : Bool :=
  t.fault == some ⟨code, pc0, word, info⟩ && t.pc == pc0

/-! ### Reset (1, W1) -/

theorem test_reset : State.reset.pc = 0x200 ∧ State.reset.stack = [] ∧ State.reset.readByte 0x004 = 0xF0 ∧
    State.reset.readByte 0x00A = 0xF0 ∧ State.reset.readByte 0x04F = 0x80 ∧ State.reset.readByte 0x050 = 0 := by decide

/-! ### Fetch and control flow (2.2) -/

theorem test_nop : steps (start 0x0123 id) (fun t => t.pc == 0x202 && t.executed == [0x200]) = true := by decide
theorem test_jp : steps (start 0x1234 id) (fun t => t.pc == 0x234) = true := by decide
theorem test_jp_self_parks : steps (start 0x1200 id) (fun t => t.pc == 0x200 && t.condition == .parked) = true := by decide
theorem test_call : steps (start 0x2300 fun s => { s with pc := 0x204 })
    (fun t => t.stack == [0x206] && t.pc == 0x300) = true := by decide
theorem test_call_overflow :
    steps (start 0x2400 fun s =>
        { s with pc := 0x300, stack := [0x202, 0x204], params := { s.params with stackLimit := some 2 } })
      (faulted .stackOverflow 0x300 (some 0x2400) none) = true := by decide
theorem test_ret : steps (start 0x00EE fun s => { s with pc := 0x300, stack := [0x300, 0x206] })
    (fun t => t.pc == 0x206 && t.stack == [0x300]) = true := by decide
theorem test_ret_underflow : steps (start 0x00EE fun s => { s with pc := 0x300 })
    (faulted .stackUnderflow 0x300 (some 0x00EE) none) = true := by decide
theorem test_seImm : steps (start 0x3342 (·.setV 3 0x42)) (fun t => t.pc == 0x204) = true := by decide
theorem test_seImm_not : steps (start 0x3342 (·.setV 3 0x41)) (fun t => t.pc == 0x202) = true := by decide
theorem test_sneImm : steps (start 0x4342 (·.setV 3 0x41)) (fun t => t.pc == 0x204) = true := by decide
theorem test_sneImm_not : steps (start 0x4342 (·.setV 3 0x42)) (fun t => t.pc == 0x202) = true := by decide
theorem test_seReg : steps (start 0x5120 (regs [0, 7, 7])) (fun t => t.pc == 0x204) = true := by decide
theorem test_seReg_not : steps (start 0x5120 (regs [0, 7, 8])) (fun t => t.pc == 0x202) = true := by decide
theorem test_sneReg : steps (start 0x9120 (regs [0, 7, 8])) (fun t => t.pc == 0x204) = true := by decide
theorem test_sneReg_not : steps (start 0x9120 (regs [0, 7, 7])) (fun t => t.pc == 0x202) = true := by decide
theorem test_jpV0 : steps (start 0xB300 (regs [4])) (fun t => t.pc == 0x304) = true := by decide
theorem test_jpV0_top : steps (start 0xBFFF (regs [0xFF])) (fun t => t.pc == 0x10FE) = true := by decide
theorem test_fetch_range : steps { State.reset with pc := 0xFFF, phase := .stepping 0 }
    (fun t => faulted .fetchRange 0xFFF none (some 0xFFF) t && t.phase == .between) = true := by decide
theorem test_fetch_last : steps { State.reset with pc := 0xFFE, phase := .stepping 0 }
    (fun t => t.pc == 0x1000 && t.fault == none) = true := by decide

/-! ### ALU (2.3) -/

theorem test_ldImm : steps (start 0x600A id) (fun t => t.getV 0 == 0x0A) = true := by decide
theorem test_addImm_wraps : steps (start 0x7101 fun s => (regs [0, 0xFF] s).setV VF 0x55)
    (fun t => t.getV 1 == 0 && t.getV VF == 0x55) = true := by decide
theorem test_ldReg : steps (start 0x8120 (regs [0, 0, 0x33])) (fun t => t.getV 1 == 0x33) = true := by decide
theorem test_or : steps (start 0x8011 fun s => (regs [0xF0, 0x0F] s).setV VF 0x77)
    (fun t => t.getV 0 == 0xFF && t.getV VF == 0x77) = true := by decide
theorem test_and : steps (start 0x8012 (regs [0xF0, 0x3C])) (fun t => t.getV 0 == 0x30) = true := by decide
theorem test_xor : steps (start 0x8013 (regs [0xFF, 0x0F])) (fun t => t.getV 0 == 0xF0) = true := by decide
theorem test_addReg_carry : steps (start 0x8014 (regs [0xFF, 0x01]))
    (fun t => t.getV 0 == 0 && t.getV VF == 1) = true := by decide
theorem test_addReg_vf_dest : steps (start 0x8F14 fun s => (regs [0, 0x20] s).setV VF 0xF0)
    (fun t => t.getV VF == 0x10) = true := by decide
theorem test_sub_borrow : steps (start 0x8015 (regs [5, 7])) (fun t => t.getV 0 == 0xFE && t.getV VF == 0) = true := by decide
theorem test_sub_vf_source : steps (start 0x80F5 fun s => (regs [3] s).setV VF 7)
    (fun t => t.getV 0 == 3 && t.getV VF == 0) = true := by decide
theorem test_shr_ignores_y : steps (start 0x80E6 fun s => (regs [4] s).setV 14 0xFF)
    (fun t => t.getV 0 == 2 && t.getV VF == 0) = true := by decide
theorem test_shr_vf : steps (start 0x8F06 (·.setV VF 3)) (fun t => t.getV VF == 0) = true := by decide
theorem test_subn : steps (start 0x8017 (regs [7, 5])) (fun t => t.getV 0 == 0xFE && t.getV VF == 0) = true := by decide
theorem test_subn_vf_source : steps (start 0x80F7 fun s => (regs [2] s).setV VF 7)
    (fun t => t.getV 0 == 0xFF && t.getV VF == 1) = true := by decide
theorem test_shl : steps (start 0x830E (·.setV 3 0x81)) (fun t => t.getV 3 == 2 && t.getV VF == 1) = true := by decide
theorem test_shl_vf : steps (start 0x8F0E (·.setV VF 0x80)) (fun t => t.getV VF == 2) = true := by decide
/-- C30F leaves the draw, whatever it is, AND 0x0F. -/
theorem test_rnd : (match step (start 0xC30F id) with
    | .next t => t.getV 3
    | _ => 0xFF) = Config.randByte 0 &&& 0x0F := rfl

/-! ### Index register and memory (2.4) -/

theorem test_ldI : steps (start 0xA2F0 id) (fun t => t.i == 0x2F0) = true := by decide
theorem test_addI_past_memory : steps (start 0xF01E fun s => { regs [1] s with i := 0xFFF })
    (fun t => t.i == 0x1000 && t.getV VF == 0) = true := by decide
theorem test_addI_overflow : steps (start 0xF01E fun s => { regs [1] s with i := 0xFFFF })
    (faulted .indexOverflow 0x200 (some 0xF01E) (some 0x10000)) = true := by decide
theorem test_ldF : steps (start 0xF029 (regs [0xFF])) (fun t => t.i == 0x4FB) = true := by decide
theorem test_ldB : steps (start 0xF033 fun s => { regs [234] s with i := 0x300 })
    (fun t => t.readBytes 0x300 3 == [2, 3, 4] && t.i == 0x300) = true := by decide
theorem test_ldB_memRange : steps (start 0xF033 fun s => { regs [1] s with i := 0xFFE })
    (fun t => faulted .memRange 0x200 (some 0xF033) (some 0x1000) t && t.readByte 0xFFE == 0) = true := by decide
theorem test_ldMemVx : steps (start 0xF255 fun s => { regs [1, 2, 3] s with i := 0x400 })
    (fun t => t.readBytes 0x400 4 == [1, 2, 3, 0] && t.i == 0x400) = true := by decide
theorem test_ldMemVx_fontWrite : steps (start 0xF055 fun s => { s with i := 0x04F })
    (faulted .fontWrite 0x200 (some 0xF055) (some 0x04F)) = true := by decide
theorem test_ldVxMem : steps (start 0xF265 fun s => { s with i := 0x400 }.writeBytes 0x400 [1, 2, 3, 4])
    (fun t => [t.getV 0, t.getV 1, t.getV 2, t.getV 3] == [1, 2, 3, 0]) = true := by decide
theorem test_ldVxMem_font : steps (start 0xFF65 id)
    (fun t => t.v.toList == [0xF0, 0x90, 0x90, 0x90, 0xF0, 0x20, 0x60, 0x20, 0x20, 0x70, 0xF0, 0x10, 0xF0, 0x80, 0xF0, 0xF0]) =
      true := by decide

/-! ### Display (2.5) -/

theorem test_cls : steps (start 0x00E0 fun s => { s.setV VF 0x33 with fb := [0, 77] })
    (fun t => t.fb == [] && t.dirty && t.getV VF == 0x33) = true := by decide
theorem test_drw_wraps_columns :
    steps (start 0xD011 fun s => { (regs [60, 0] s) with i := 0x300 }.writeBytes 0x300 [0xFF])
      (fun t => t.fb == [0, 1, 2, 3, 60, 61, 62, 63] && t.getV VF == 0) = true := by decide
theorem test_drw_collision :
    steps (start 0xD011 fun s => { s with i := 0x300, fb := [0] }.writeBytes 0x300 [0x80])
      (fun t => !t.pixel 0 0 && t.getV VF == 1 && t.dirty) = true := by decide

/-! ### Keypad and timer instructions (2.6) -/

theorem test_skp : steps (start 0xE29E fun s => (regs [0, 0, 5] s).setKey 5 true) (fun t => t.pc == 0x204) = true := by decide
theorem test_skp_keyRange : steps (start 0xE09E (regs [0x10]))
    (faulted .keyRange 0x200 (some 0xE09E) (some 0x10)) = true := by decide
theorem test_sknp : steps (start 0xE2A1 (regs [0, 0, 5])) (fun t => t.pc == 0x204) = true := by decide
theorem test_sknp_pressed : steps (start 0xE2A1 fun s => (regs [0, 0, 5] s).setKey 5 true)
    (fun t => t.pc == 0x202) = true := by decide
theorem test_ldVxDt : steps (start 0xF307 fun s => { s with dt := 0x3C }) (fun t => t.getV 3 == 0x3C) = true := by decide
theorem test_ldVxK : steps (start 0xF00A id) (fun t => t.mode == .awaitingKey 0 && t.pc == 0x202) = true := by decide
theorem test_ldDtVx : steps (start 0xF015 (regs [60])) (fun t => t.dt == 60) = true := by decide
theorem test_ldStVx_no_beep : steps (start 0xF118 fun s => { s with st := 1 })
    (fun t => t.st == 0 && t.outputs == []) = true := by decide

/-! ### The host's events, the timers and the Scheduler (2.6, 2.7, 3) -/

/-- A held engine: R74's idle step, and the press that resumes it. -/
theorem test_held_step : answers (engineStep { State.reset with mode := .awaitingKey 0 })
    (fun t => t == { State.reset with mode := .awaitingKey 0 }) = true := by decide
/-- A paused host freezes the block; a playing one's first move runs the first step of a tick (R145, R140). -/
theorem test_paused : steps State.reset (fun t => t == State.reset) = true := by decide
theorem test_playing : answers (State.handle .play { State.reset with executed := [0x300] })
    (fun s => steps s (fun t => t.pc == 0x202 && t.executed == [0x200] && t.phase == .stepping 1)) = true := by decide
theorem test_setKey_resumes :
    answers (State.handle (.setKey 5 true) { State.reset with mode := .awaitingKey 0 })
      (fun t => t.getV 0 == 5 && t.mode == .running && t.isPressed 5) = true := by decide
theorem test_setKey_release :
    answers (State.handle (.setKey 5 false) { State.reset with mode := .awaitingKey 0 })
      (fun t => t.getV 0 == 0 && t.mode == .awaitingKey 0) = true := by decide
theorem test_decay_beeps : ({ State.reset with st := 1 }).timerDecay.st = 0 ∧
    ({ State.reset with st := 1 }).timerDecay.outputs = [.beep] ∧
    ({ State.reset with st := 2, dt := 2 }).timerDecay.outputs = [] ∧
    ({ State.reset with st := 2, dt := 2 }).timerDecay.dt = 1 := by decide
theorem test_tick_ten_nops :
    answers (tick { State.reset with dt := 5 })
      (fun t => t.pc == 0x214 && t.executed == (List.range 10).map (fun k => BitVec.ofNat 16 (0x200 + 2 * k)) && t.dt == 4) =
      true := by decide
theorem test_tick_held :
    answers (tick { State.reset with mode := .awaitingKey 0, dt := 5 })
      (fun t => t.pc == 0x200 && t.dt == 4 && t.executed == []) = true := by decide
/-- P7's first tick: the second step faults, and the timers do not decay. -/
theorem test_tick_fault :
    answers (State.handle (.load [0x60, 0x01, 0x00, 0xEE, 0x60, 0x02]) State.reset)
      (fun s => answers (tick { s with dt := 5 })
        (fun t => faulted .stackUnderflow 0x202 (some 0x00EE) none t && t.getV 0 == 1 && t.dt == 5)) = true := by decide
theorem test_load_too_long_refused :
    ∀ bytes : List Byte, bytes.length = 3585 → State.handle (.load bytes) State.reset = .refused .imageTooLong := by
  intro bytes h
  have : ¬ bytes.length ≤ Config.maxImage := by rw [h]; decide
  exact if_neg this
theorem test_setCyclesPerTick_refused : (match State.handle (.setCyclesPerTick 31) State.reset with
    | .refused .cyclesOutOfRange => true
    | _ => false) = true := by decide
/-- Three stepOnce events on the source's scenario (P1), with either value of STEP_ONCE_TICKS_TIMERS. -/
theorem test_scenario_p1 : ∀ d, answers (State.handle (.load [0x60, 0x0A, 0x61, 0x0B, 0x80, 0x14]) State.reset)
    (fun s => answers (stepOnceWith d s) (fun s => answers (stepOnceWith d s) (fun s => answers (stepOnceWith d s)
      (fun t => t.getV 0 == 21 && t.getV VF == 0 && t.pc == 0x206)))) = true := by decide
theorem test_withFetchWord : steps (State.reset.withFetchWord 16 0x600A) (fun t => t.getV 0 == 10) = true := by decide

/-! ## Witnesses: concrete states and operands that meet the hypotheses of the statements, at the ends of their ranges -/

/-- A fault record, and a state that holds it. -/
def underflow : FaultRecord := ⟨.stackUnderflow, 0x300, some 0x00EE, none⟩
@[inherit_doc underflow] def halted : State := { State.reset with pc := 0x300, fault := some underflow }
/-- A state held by FF0A at 0x200. -/
def held : State := { State.reset with pc := 0x202, mode := .awaitingKey 15, keys := State.reset.keys.set 3 true, dt := 1, st := 1 }
/-- A state whose parameters are not the defaults. -/
def small (limit : Nat) (stack : List Word) : State :=
  { State.reset with stack := stack, params := ⟨Vector.replicate 80 0xAA, 4, 3, some limit⟩ }

/-- The state an outcome holds. -/
def after : Host.Outcome State Fault Refusal → State
  | .next t => t
  | _ => State.reset

theorem witness_EncodedInstructionsDecodeBack :
    (Instr.nop 0x5121).wellFormed = true ∧ (Instr.drw 15 15 15).wellFormed = true := by decide
theorem witness_OpcodeRowsAreDisjoint : (opcodeMap[2]'(by decide)).selects 0x1FFF = true ∧
    (opcodeMap[33]'(by decide)).selects 0xFF65 = true := by decide
/-- A step at the last address a fetch allows. -/
theorem witness_StepRunsTheDecodedInstruction :
    let s := { start 0x1FFE fun s => { s with pc := 0xFFE } with phase := .between, playing := true, cyclesPerTick := 1 }
    s.fault = none ∧ s.mode = .running ∧ s.phase = .between ∧ s.playing = true ∧ 1 ≤ s.cyclesPerTick ∧ s.pc.toNat ≤ 0xFFE ∧
    decode (s.readByte s.pc.toNat ++ s.readByte (s.pc.toNat + 1)) = .jp 0xFFE := by decide
theorem witness_StepInsideATickRunsTheDecodedInstruction :
    let s := { start 0xFF0A id with phase := .stepping 9 }
    s.fault = none ∧ s.mode = .running ∧ s.phase = .stepping 9 ∧ s.pc.toNat ≤ 0xFFE ∧
    decode (s.readByte s.pc.toNat ++ s.readByte (s.pc.toNat + 1)) = .ldVxK 15 := by decide
theorem witness_FetchAboveMemoryFaults :
    let s : State := { State.reset with pc := 0xFFF, phase := .stepping 9 }
    s.fault = none ∧ s.mode = .running ∧ s.phase = .stepping 9 ∧ 0xFFF < s.pc.toNat + 1 := by decide
theorem witness_HeldOrHaltedEngineDoesNothing :
    (halted.phase = .between ∧ halted.fault ≠ none) ∧ (held.phase = .between ∧ held.mode ≠ .running) ∧
    (State.reset.phase = .between ∧ State.reset.playing = false) := by decide
theorem witness_StepCompletesOrFaults : State.reset.fault = none ∧ held.fault = none := by decide
/-- A storing word at pc with V0 = 234 and V1 = 5, and I at an address. -/
def storing (w pc i : Word) : State := start w fun s => { regs [234, 5] s with pc := pc, i := i }
/-- The hypotheses of StoreIsSeenByTheNextFetch that rest on the state alone. -/
def mayStore (s : State) (i : Instr) (count : Nat) : Prop :=
  Memory.wf s.params.font s.mem ∧ s.pc.toNat ≤ 0xFFC ∧
  decode (s.readByte s.pc.toNat ++ s.readByte (s.pc.toNat + 1)) = i ∧ 0x50 ≤ s.i.toNat ∧ s.i.toNat + count ≤ 0x1000
/-- F155 over the whole next word, F055 over its second byte, at the top of memory, and F033 from the storing word itself on
over the first byte of the next. -/
theorem witness_StoreIsSeenByTheNextFetch :
    (mayStore (storing 0xF155 0x200 0x202) (.ldMemVx 1) 2 ∧ ([234, 5] : List Byte).length = 2 ∧
      (∀ k : Reg, k ≤ 1 → ([234, 5] : List Byte)[k.val]? = some ((storing 0xF155 0x200 0x202).getV k))) ∧
    (mayStore (storing 0xF055 0xFFC 0xFFF) (.ldMemVx 0) 1 ∧
      (∀ k : Reg, k ≤ 0 → ([234] : List Byte)[k.val]? = some ((storing 0xF055 0xFFC 0xFFF).getV k))) ∧
    (mayStore (storing 0xF033 0x200 0x200) (.ldB 0) 3 ∧ ([2, 3, 4] : List Byte).map BitVec.toNat =
      [((storing 0xF033 0x200 0x200).getV 0).toNat / 100, ((storing 0xF033 0x200 0x200).getV 0).toNat / 10 % 10,
        ((storing 0xF033 0x200 0x200).getV 0).toNat % 10]) ∧
    ∀ w pc i, (storing w pc i).fault = none ∧ (storing w pc i).mode = .running := by
  refine ⟨⟨?_, rfl, by decide⟩, ⟨?_, by decide⟩, ⟨?_, by decide⟩, fun _ _ _ => ⟨rfl, rfl⟩⟩ <;> unfold mayStore <;> decide
theorem witness_NopOnlyAdvances : ∀ r ∈ opcodeMap, r.selects 0x5121 = false := by decide
theorem witness_CallPushesTheReturnAddress :
    State.reset.params.stackLimit ≠ some State.reset.stack.length ∧
    (small 2 [0x202]).params.stackLimit ≠ some (small 2 [0x202]).stack.length ∧
    (small 1 [0x202]).params.stackLimit = some (small 1 [0x202]).stack.length ∧
    (small 0 []).params.stackLimit = some (small 0 []).stack.length := by decide
theorem witness_ReturnPopsTheReturnAddress :
    (small 2 [0x202, 0x1000]).stack = [0x202] ++ [0x1000] ∧ (small 2 [0x204]).stack = [] ++ [0x204] ∧
    State.reset.stack = [] := by decide
theorem witness_ReturnUndoesCall : State.reset.params.stackLimit ≠ some State.reset.stack.length ∧
    exec (.call 0x300) State.reset =
      .next { State.reset with pc := 0x300, stack := [0x202], executed := [0x200] } := ⟨by decide, rfl⟩
theorem witness_AddSetsCarryAndSum : (0 : Reg) ≠ VF ∧ (14 : Reg) ≠ VF := by decide
theorem witness_SubSetsNotBorrowAndDifference : ∀ p ∈ [((0x00 : Byte), (0x01 : Byte), 0), (0x01, 0x01, 1)],
    p.2.2 = if ((regs [p.1, p.2.1] State.reset).getV 0).toNat < ((regs [p.1, p.2.1] State.reset).getV 1).toNat
      then 0 else 1 := by decide
theorem witness_SubnSetsNotBorrowAndDifference : ∀ p ∈ [((0x01 : Byte), (0x00 : Byte), 0), (0x01, 0x01, 1)],
    p.2.2 = if ((regs [p.1, p.2.1] State.reset).getV 1).toNat < ((regs [p.1, p.2.1] State.reset).getV 0).toNat
      then 0 else 1 := by decide
theorem witness_ShiftsMoveOneBit : (2 : Reg) ≠ VF := by decide
/-- The largest sum that fits, and the least that does not. -/
theorem witness_IndexAddOverflowsToAFault :
    let s : State := { regs [0xFF, 1] State.reset with i := 0xFF00 }
    s.i.toNat + (s.getV 0).toNat = 0xFFFF ∧
    0xFFFF < { s with i := 0xFF01 }.i.toNat + ({ s with i := 0xFF01 }.getV 0).toNat := by decide
/-- Reset with I at an address. -/
def pointing (i : Word) : State := { State.reset with i := i }
/-- I at both ends of the writable bytes, one past each, and at 0. -/
theorem witness_DecimalDigitsAreStored : Memory.wf (pointing 0x50).params.font (pointing 0x50).mem ∧
    (0x50 ≤ (pointing 0x50).i.toNat ∧ (pointing 0x50).i.toNat + 2 ≤ 0xFFF) ∧
    (0x50 ≤ (pointing 0xFFD).i.toNat ∧ (pointing 0xFFD).i.toNat + 2 ≤ 0xFFF) ∧
    0xFFF < (pointing 0xFFE).i.toNat + 2 ∧ 0xFFF < (pointing 0xFFFF).i.toNat + 2 ∧
    (pointing 0x4F).i.toNat ≤ 0x4F ∧ (pointing 0).i.toNat ≤ 0x4F := by decide
theorem witness_RegistersAreStored : Memory.wf (pointing 0x50).params.font (pointing 0x50).mem ∧
    (0x50 ≤ (pointing 0x50).i.toNat ∧ (pointing 0x50).i.toNat + (15 : Reg).val ≤ 0xFFF) ∧
    (0x50 ≤ (pointing 0xFF0).i.toNat ∧ (pointing 0xFF0).i.toNat + (15 : Reg).val ≤ 0xFFF) ∧
    (0x50 ≤ (pointing 0xFFF).i.toNat ∧ (pointing 0xFFF).i.toNat + (0 : Reg).val ≤ 0xFFF) ∧
    0xFFF < (pointing 0xFF1).i.toNat + (15 : Reg).val ∧ 0xFFF < (pointing 0x1000).i.toNat + (0 : Reg).val ∧
    (pointing 0x4F).i.toNat ≤ 0x4F ∧ (pointing 0).i.toNat ≤ 0x4F := by decide
theorem witness_RegistersAreLoaded :
    (pointing 0).i.toNat + (15 : Reg).val ≤ 0xFFF ∧ (pointing 0xFF0).i.toNat + (15 : Reg).val ≤ 0xFFF ∧
    0xFFF < (pointing 0xFF1).i.toNat + (15 : Reg).val ∧ 0xFFF < (pointing 0x1000).i.toNat + (0 : Reg).val := by decide
/-- The two bytes at the top of memory; V2 keeps its value through the zeroing. -/
theorem witness_StoreThenLoadRestoresRegisters :
    let s : State := { regs [7, 8, 9] State.reset with i := 0xFFE }
    let t := after (exec (.ldMemVx 1) s)
    let z := { t with v := (regs [0, 0] t).v }
    (Memory.wf s.params.font s.mem ∧ 0x50 ≤ s.i.toNat ∧ s.i.toNat + 1 ≤ 0xFFF ∧
      ∀ k : Reg, z.getV k = if k ≤ 1 then 0 else t.getV k) ∧
    exec (.ldMemVx 1) s = .next t ∧ z = { t with v := z.v } ∧
    exec (.ldVxMem 1) z = .next (after (exec (.ldVxMem 1) z)) := ⟨by decide, rfl, rfl, rfl⟩
/-- No row at all with I anywhere, a sprite that ends at the top of memory, one that reaches over it, and a 4 by 3 grid. -/
theorem witness_SpriteDrawFlipsItsPixels :
    (State.reset.params.ok ∧ Framebuffer.wf 64 32 [0, 2047]) ∧
    ((small 0 []).params.ok ∧ Framebuffer.wf (small 0 []).params.fbWidth (small 0 []).params.fbHeight [0, 11]) ∧
    { State.reset with i := 0xFF1 }.i.toNat + ((15 : Fin 16) : Nat) ≤ 0x1000 ∧
    0x1000 < { State.reset with i := 0xFF2 }.i.toNat + ((15 : Fin 16) : Nat) ∧
    0x1000 < { State.reset with i := 0x1000 }.i.toNat + ((1 : Fin 16) : Nat) := by decide
/-- A row of eight 1 bits over one set pixel, drawn twice with V0 and V1 as coordinates. -/
theorem witness_DrawingTwiceRestoresTheScreen :
    let s : State := { regs [60, 31] State.reset with i := 0x300, fb := [2047] }.writeBytes 0x300 [0xFF, 0x81]
    let t := after (exec (.drw 0 1 2) s)
    (s.params.ok ∧ Framebuffer.wf s.params.fbWidth s.params.fbHeight s.fb ∧ s.i.toNat + 2 ≤ 0x1000 ∧
      t.getV 0 = s.getV 0 ∧ t.getV 1 = s.getV 1 ∧ 8 ≤ s.params.fbWidth ∧ 2 ≤ s.params.fbHeight) ∧
    exec (.drw 0 1 2) s = .next t ∧ exec (.drw 0 1 2) t = .next (after (exec (.drw 0 1 2) t)) := ⟨by decide, rfl, rfl⟩
theorem witness_SpriteWrapsAroundTheEdge :
    let s : State := { regs [60, 255] State.reset with i := 0xFFF }.writeBytes 0xFFF [0xFF]
    s.params.fbWidth = 64 ∧ s.params.fbHeight = 32 ∧ s.fb = [] ∧ (s.getV 0).toNat = 60 ∧ s.i.toNat ≤ 0xFFF ∧
    s.readByte s.i.toNat = 0xFF := by decide
theorem witness_KeySkipsReadTheKey :
    ((regs [0x0F] State.reset).getV 0).toNat = ((15 : Fin 16) : Nat) ∧
    (State.reset.getV 0).toNat = ((0 : Fin 16) : Nat) ∧ 0xF < ((regs [0x10] State.reset).getV 0).toNat := by decide
theorem witness_KeyWaitHoldsUntilAPress : State.reset.mode = .running := by decide
theorem witness_KeyEventsChangeTheKey :
    15 = ((15 : Fin 16) : Nat) ∧ 0 = ((0 : Fin 16) : Nat) ∧ State.reset.mode = .running ∧
    (held.mode = .awaitingKey 15 ∧ held.executed = [] ∧ { held with executed := [0x200] }.mode = .awaitingKey 15) ∧
    16 ≤ 16 := by decide
/-- Whether a step of the engine, and the step of the tick it is in, answers a next state that holds a fault. -/
def stepFaults (s : State) (f : FaultRecord) : Prop :=
  (s.fault = none ∧ engineStep s = .next (after (engineStep s)) ∧ (after (engineStep s)).fault = some f) ∧
  s.phase = .stepping 0 ∧ step s = .next (after (step s)) ∧ (after (step s)).fault = some f
/-- Reset with pc at an address, and a tick begun. -/
def fetching (pc : Word) : State := { State.reset with pc := pc, phase := .stepping 0 }
/-- A fault of the fetch and one of an instruction. -/
theorem witness_FaultsArePrecise :
    stepFaults (fetching 0x1000) ⟨.fetchRange, 0x1000, none, some 0x1000⟩ ∧
    stepFaults (start 0x00EE fun s => { s with pc := 0x300 }) underflow :=
  ⟨⟨⟨rfl, rfl, by decide⟩, rfl, rfl, by decide⟩, ⟨⟨rfl, rfl, by decide⟩, rfl, rfl, by decide⟩⟩
/-- The fetch's fault at 0xFFF and none at 0xFFE; LD B's faults and its completion at the boundaries of I. -/
theorem witness_OnlyTheseInstructionsFault :
    (∀ pc, (fetching pc).phase = .stepping 0 ∧ (fetching pc).fault = none ∧ (fetching pc).mode = .running) ∧
    step (fetching 0xFFE) = .next (after (step (fetching 0xFFE))) ∧
    step (fetching 0xFFF) = .next (after (step (fetching 0xFFF))) ∧
    engineStep (fetching 0xFFF) = .next (after (engineStep (fetching 0xFFF))) ∧
    exec (.ldB 0) (pointing 0x4F) = .next (after (exec (.ldB 0) (pointing 0x4F))) ∧
    exec (.ldB 0) (pointing 0x50) = .next (after (exec (.ldB 0) (pointing 0x50))) ∧
    exec (.ldB 0) (pointing 0xFFD) = .next (after (exec (.ldB 0) (pointing 0xFFD))) ∧
    exec (.ldB 0) (pointing 0xFFE) = .next (after (exec (.ldB 0) (pointing 0xFFE))) :=
  ⟨fun _ => ⟨rfl, rfl, rfl⟩, rfl, rfl, rfl, rfl, rfl, rfl, rfl⟩
/-- Whether an instruction completes from s and changes what a projection shows. -/
def changes {α : Type} (i : Instr) (s : State) (f : State → α) : Prop :=
  exec i s = .next (after (exec i s)) ∧ f (after (exec i s)) ≠ f s
theorem witness_EachPieceOfStateHasItsWriters :
    changes (.ldI 0x300) State.reset State.i ∧ changes (.call 0x300) State.reset State.stack ∧
    changes (.ldDtVx 0) (regs [9] State.reset) State.dt ∧ changes (.ldStVx 0) (regs [9] State.reset) State.st ∧
    changes .cls State.reset State.dirty ∧ changes (.ldVxK 0) State.reset State.mode ∧
    changes (.ldMemVx 0) (regs [9] (pointing 0x300)) State.mem ∧ changes (.rnd 0 1) State.reset State.draws ∧
    changes (.addReg 0 1) (regs [255, 1] State.reset) (·.getV 0) ∧
    changes (.addReg 0 1) (regs [255, 1] State.reset) (·.getV VF) ∧ changes .ret State.reset State.fault :=
  ⟨⟨rfl, by decide⟩, ⟨rfl, by decide⟩, ⟨rfl, by decide⟩, ⟨rfl, by decide⟩, ⟨rfl, by decide⟩, ⟨rfl, by decide⟩,
    ⟨rfl, by decide⟩, ⟨rfl, by decide⟩, ⟨rfl, by decide⟩, ⟨rfl, by decide⟩, ⟨rfl, by decide⟩⟩
/-- Two states that differ in everything no instruction reads. -/
theorem witness_NoInstructionReadsTheOutputs :
    let s' : State := { State.reset with dirty := true, executed := [0x200], st := 9, outputs := [.beep] }
    State.reset.visible = s'.visible ∧ State.reset ≠ s' ∧
    exec (.ldVxDt 0) State.reset = .next (after (exec (.ldVxDt 0) State.reset)) ∧
    exec (.ldVxDt 0) s' = .next (after (exec (.ldVxDt 0) s')) := ⟨by decide, by decide, rfl, rfl⟩
/-- A state before the last step of a tick, and one whose tick's first fetch faults. -/
def lastStep : State := { start 0xFF55 fun s => { s with i := 0x300 } with phase := .stepping 9 }
@[inherit_doc lastStep] def badFetch : State := { State.reset with pc := 0x10FE, phase := .stepping 0 }
theorem halted_inv : halted.Inv where
  params_ok := by decide
  mem_wf := by decide
  font_intact := by decide
  pc_le := by decide
  stack_le := fun _ h => nomatch h
  stack_limit := by rintro n ⟨⟩
  fb_wf := by decide
  cycles_ok := by decide
  fault_idle := by decide
  fault_pc := by rintro f ⟨⟩; rfl
  fault_word := by rintro f ⟨⟩; decide
  stepping_ok := by rintro k ⟨⟩
  executed_le := fun _ h => nomatch h
theorem held_inv : held.Inv where
  params_ok := by decide
  mem_wf := by decide
  font_intact := by decide
  pc_le := by decide
  stack_le := fun _ h => nomatch h
  stack_limit := by rintro n ⟨⟩
  fb_wf := by decide
  cycles_ok := by decide
  fault_idle := by decide
  fault_pc := by rintro f ⟨⟩
  fault_word := by rintro f ⟨⟩
  stepping_ok := by rintro k ⟨⟩
  executed_le := fun _ h => nomatch h
theorem lastStep_inv : lastStep.Inv where
  params_ok := by decide
  mem_wf := by decide
  font_intact := by decide
  pc_le := by decide
  stack_le := fun _ h => nomatch h
  stack_limit := by rintro n ⟨⟩
  fb_wf := by decide
  cycles_ok := by decide
  fault_idle := by decide
  fault_pc := by rintro f ⟨⟩
  fault_word := by rintro f ⟨⟩
  stepping_ok := by rintro k ⟨⟩; decide
  executed_le := fun _ h => nomatch h
theorem badFetch_inv : badFetch.Inv where
  params_ok := by decide
  mem_wf := by decide
  font_intact := by decide
  pc_le := by decide
  stack_le := fun _ h => nomatch h
  stack_limit := by rintro n ⟨⟩
  fb_wf := by decide
  cycles_ok := by decide
  fault_idle := by decide
  fault_pc := by rintro f ⟨⟩
  fault_word := by rintro f ⟨⟩
  stepping_ok := by rintro k ⟨⟩; decide
  executed_le := fun _ h => nomatch h
theorem witness_FaultedBlockStaysHalted : halted.Inv ∧ halted.fault ≠ none ∧ ([0xFF] : List Byte).length ≤ 3584 :=
  ⟨halted_inv, by decide, by decide⟩
theorem witness_TickIsTheRunOfItsMoves :
    (State.reset.phase = .between ∧ State.reset.fault = none ∧ State.reset.mode = .running ∧ 1 ≤ State.reset.cyclesPerTick) ∧
    (held.phase = .between ∧ held.fault = none ∧ held.mode ≠ .running) ∧
    (halted.phase = .between ∧ halted.fault ≠ none) ∧
    ({ State.reset with playing := true }.phase = .between ∧ { State.reset with playing := true }.playing = true) ∧
    { held with phase := .finishing }.phase = .finishing := by decide
theorem witness_HeldTickOnlyDecays :
    held.fault = none ∧ held.mode = .awaitingKey 15 ∧ held.st = 1 ∧ halted.fault ≠ none := by decide
/-- A tick that ends well with a beep, and one that faults in its first step. -/
theorem witness_TickStaysWithinTheBudget :
    (∀ s : State, s = { State.reset with st := 1, cyclesPerTick := 2 } →
      s.fault = none ∧ tick s = .next (after (tick s)) ∧ (after (tick s)).fault = none) ∧
    (∀ s : State, s = start 0x00EE id →
      s.fault = none ∧ tick s = .next (after (tick s)) ∧ (after (tick s)).fault ≠ none) :=
  ⟨fun _ h => h ▸ ⟨rfl, rfl, by decide⟩, fun _ h => h ▸ ⟨rfl, rfl, by decide⟩⟩
theorem witness_SingleStepPresentsItsStep :
    let s : State := { start 0x00E0 id with st := 1, executed := [0x300] }
    let t := after (engineStep { s with executed := [] })
    (s.fault = none ∧ s.mode = .running ∧ engineStep { s with executed := [] } = .next t ∧ t.fault = none) ∧
    State.reset.phase = .between := ⟨⟨rfl, rfl, rfl, by decide⟩, rfl⟩
theorem witness_ResetClearsTheBlock : halted.phase = .between ∧ held.phase = .between := by decide
theorem witness_LoadPlacesTheImage : State.reset.phase = .between ∧ ([] : List Byte).length ≤ 3584 ∧
    (List.replicate 3584 (0xFF : Byte)).length ≤ 3584 ∧ 3584 < (List.replicate 3585 (0 : Byte)).length :=
  ⟨rfl, by decide, List.length_replicate.le, by rw [List.length_replicate]; decide⟩
theorem witness_CycleBudgetIsOneToThirty : State.reset.phase = .between ∧
    (∀ n ∈ [1, 30], 1 ≤ n ∧ n ≤ 30) ∧ ∀ n ∈ [0, 31], n = 0 ∨ 30 < n := by decide
/-- A self-jump at an address. -/
def parked (pc w : Word) : State := start w fun s => { s with pc := pc }
theorem witness_ParkedEngineStays :
    ((parked 0x200 0x1200).fault = none ∧ (parked 0x200 0x1200).mode = .running ∧ (parked 0x200 0x1200).isParked = true) ∧
    ((parked 0xFFE 0x1FFE).fault = none ∧ (parked 0xFFE 0x1FFE).mode = .running ∧
      (parked 0xFFE 0x1FFE).isParked = true) := by decide
theorem witness_EventsDuringATickAreRefused :
    { State.reset with phase := .finishing }.phase ≠ .between ∧ (∀ code p, HostEvent.tick ≠ .setKey code p) ∧
    HostEvent.tick ≠ .play ∧ HostEvent.tick ≠ .pause :=
  ⟨by decide, (fun _ _ h => nomatch h), by decide, by decide⟩
theorem witness_StepKeepsTheInvariant :
    (lastStep.Inv ∧ step lastStep = .next (after (step lastStep))) ∧
    (badFetch.Inv ∧ step badFetch = .next (after (step badFetch))) :=
  ⟨⟨lastStep_inv, rfl⟩, ⟨badFetch_inv, rfl⟩⟩
theorem witness_HostEventsKeepTheInvariant :
    (held.Inv ∧ held.handle (.setKey 15 true) = .next (after (held.handle (.setKey 15 true)))) ∧
    (halted.Inv ∧ halted.handle (.load [0xFF]) = .next (after (halted.handle (.load [0xFF])))) :=
  ⟨⟨held_inv, rfl⟩, ⟨halted_inv, rfl⟩⟩
/-- A power-on state, the one in which its host plays, and the one after a step there. -/
theorem witness_ReachableStatesKeepFontAndPcBound :
    Reachable { State.reset with params := (small 0 []).params } ∧
    Reachable { State.reset with params := (small 0 []).params, playing := true } ∧
    Reachable (after (step { State.reset with params := (small 0 []).params, playing := true })) :=
  have h : (small 0 []).params.ok := by decide
  have playing : Reachable { State.reset with params := (small 0 []).params, playing := true } :=
    .move (.event .play) (.powerOn _ h) rfl
  ⟨.powerOn _ h, playing, .move .step playing rfl⟩

end Sys2Proof.Tests
end

section
/-! PROOF. What the block does with a change of the cycle budget (R10, R40, R140). -/

namespace Sys2Proof.Machine

open Sys2Proof.Config

variable {s : State}

/-- Between ticks no event is held back (R138). -/
theorem betweenTicks_of_between (h : s.phase = .between) (next : Host.Outcome State Fault Refusal) :
    s.betweenTicks next = next :=
  if_pos h

/-- Between ticks a legal budget is written, and nothing else. -/
theorem handle_setCyclesPerTick_of_legal {n : Nat} (h : s.phase = .between) (hn : minCycles ≤ n ∧ n ≤ maxCycles) :
    s.handle (.setCyclesPerTick n) = .next { s with cyclesPerTick := n } :=
  (betweenTicks_of_between h _).trans (if_pos hn)

/-- Between ticks any other budget is refused. -/
theorem handle_setCyclesPerTick_of_illegal {n : Nat} (h : s.phase = .between)
    (hn : ¬(minCycles ≤ n ∧ n ≤ maxCycles)) :
    s.handle (.setCyclesPerTick n) = .refused .cyclesOutOfRange :=
  (betweenTicks_of_between h _).trans (if_neg hn)

/-- Settles O53, by the two branches of the event's range check, whose bounds are 1 and 30. -/
theorem cycleBudgetIsOneToThirty : Obligations.CycleBudgetIsOneToThirty := by
  intro n s hphase
  constructor
  · exact handle_setCyclesPerTick_of_legal hphase
  · intro hout
    have hn : ¬(minCycles ≤ n ∧ n ≤ maxCycles) := by
      simp only [minCycles, maxCycles]
      omega
    exact handle_setCyclesPerTick_of_illegal hphase hn

end Sys2Proof.Machine
end

section
/-! PROOF. Which pieces of the state each instruction writes (R27–R37, R56, R120). -/

namespace Sys2Proof.Machine

open Sys2Proof.Config

/-! ## The effect as an update of the pieces an instruction writes -/

/-- The state t with the pieces instruction i may write taken from u. -/
def State.takingWrites (t : State) (i : Instr) (u : State) : State :=
  match i with
  | .cls => { t with fb := u.fb, dirty := u.dirty }
  | .drw _ _ _ => { t with v := u.v, fb := u.fb, dirty := u.dirty }
  | .ret | .call _ => { t with pc := u.pc, stack := u.stack }
  | .jp _ | .jpV0 _ => { t with pc := u.pc }
  | .seImm _ _ | .sneImm _ _ | .seReg _ _ | .sneReg _ _ | .skp _ | .sknp _ => { t with pc := u.pc }
  | .ldImm _ _ | .addImm _ _ | .ldReg _ _ | .or _ _ | .and _ _ | .xor _ _ | .ldVxDt _ | .ldVxMem _ => { t with v := u.v }
  | .addReg _ _ | .sub _ _ | .shr _ _ | .subn _ _ | .shl _ _ => { t with v := u.v }
  | .rnd _ _ => { t with v := u.v, draws := u.draws }
  | .ldI _ | .addI _ | .ldF _ => { t with i := u.i }
  | .ldB _ | .ldMemVx _ => { t with mem := u.mem }
  | .ldDtVx _ => { t with dt := u.dt }
  | .ldStVx _ => { t with st := u.st }
  | .ldVxK _ => { t with mode := u.mode }
  | .nop _ => t

/-- An instruction's effect changes no piece of the state but those it may write. -/
theorem effectOf_eq_takingWrites (i : Instr) (t : State) : effectOf i t = t.takingWrites i (effectOf i t) := by
  cases i
  case ret => rcases popPc_cases (s := t) with h | ⟨a, -, h⟩ <;> simp only [effectOf, h, State.takingWrites]
  case ldB => exact writeBytes_eq_self_but_mem ..
  case ldMemVx => exact writeBytes_eq_self_but_mem ..
  case ldVxMem => exact loadRegs_eq_self_but_v ..
  case seImm | sneImm | seReg | sneReg | skp | sknp => simp only [effectOf, skipIf_eq, State.takingWrites]
  all_goals rfl

/-! ## The writers of each piece -/

section
variable {i : Instr} {t : State}

theorem writers_i (h : (effectOf i t).i ≠ t.i) : (∃ nnn, i = .ldI nnn) ∨ (∃ x, i = .addI x) ∨ ∃ x, i = .ldF x := by
  rw [effectOf_eq_takingWrites] at h
  cases i
  case ldI nnn => exact .inl ⟨nnn, rfl⟩
  case addI x => exact .inr (.inl ⟨x, rfl⟩)
  case ldF x => exact .inr (.inr ⟨x, rfl⟩)
  all_goals exact absurd rfl h

theorem writers_stack (h : (effectOf i t).stack ≠ t.stack) : i = .ret ∨ ∃ nnn, i = .call nnn := by
  rw [effectOf_eq_takingWrites] at h
  cases i
  case ret => exact .inl rfl
  case call nnn => exact .inr ⟨nnn, rfl⟩
  all_goals exact absurd rfl h

theorem writers_dt (h : (effectOf i t).dt ≠ t.dt) : ∃ x, i = .ldDtVx x := by
  rw [effectOf_eq_takingWrites] at h
  cases i
  case ldDtVx x => exact ⟨x, rfl⟩
  all_goals exact absurd rfl h

theorem writers_st (h : (effectOf i t).st ≠ t.st) : ∃ x, i = .ldStVx x := by
  rw [effectOf_eq_takingWrites] at h
  cases i
  case ldStVx x => exact ⟨x, rfl⟩
  all_goals exact absurd rfl h

theorem writers_fb_or_dirty (h : (effectOf i t).fb ≠ t.fb ∨ (effectOf i t).dirty ≠ t.dirty) :
    i = .cls ∨ ∃ x y n, i = .drw x y n := by
  rw [effectOf_eq_takingWrites] at h
  cases i
  case cls => exact .inl rfl
  case drw x y n => exact .inr ⟨x, y, n, rfl⟩
  all_goals exact h.elim (absurd rfl) (absurd rfl)

theorem writers_mode (h : (effectOf i t).mode ≠ t.mode) : ∃ x, i = .ldVxK x := by
  rw [effectOf_eq_takingWrites] at h
  cases i
  case ldVxK x => exact ⟨x, rfl⟩
  all_goals exact absurd rfl h

theorem writers_mem (h : (effectOf i t).mem ≠ t.mem) : (∃ x, i = .ldB x) ∨ ∃ x, i = .ldMemVx x := by
  rw [effectOf_eq_takingWrites] at h
  cases i
  case ldB x => exact .inl ⟨x, rfl⟩
  case ldMemVx x => exact .inr ⟨x, rfl⟩
  all_goals exact absurd rfl h

theorem writers_draws (h : (effectOf i t).draws ≠ t.draws) : ∃ x nn, i = .rnd x nn := by
  rw [effectOf_eq_takingWrites] at h
  cases i
  case rnd x nn => exact ⟨x, nn, rfl⟩
  all_goals exact absurd rfl h

end

/-! ## The V registers, pc and the faults, instruction by instruction -/

/-- The V registers R27's table gives an instruction as written. -/
def writesReg (i : Instr) (r : Reg) : Prop :=
  match i with
  | .ldImm x _ | .addImm x _ | .ldReg x _ | .or x _ | .and x _ | .xor x _ | .rnd x _ | .ldVxDt x => r = x
  | .addReg x _ | .sub x _ | .shr x _ | .subn x _ | .shl x _ => r = x ∨ r = VF
  | .drw _ _ _ => r = VF
  | .ldVxMem x => r ≤ x
  | _ => False

/-- A register that a write to x changes is x. -/
theorem eq_of_getV_setV_ne {s : State} {x r : Reg} {b : Byte} (h : (s.setV x b).getV r ≠ s.getV r) : r = x :=
  not_imp_comm.mp getV_setV_other h

/-- A register that a flag write and then a write to x change is x or VF. -/
theorem eq_or_eq_of_getV_setFlag_setV_ne {s : State} {c : Bool} {x r : Reg} {b : Byte}
    (h : ((s.setFlag c).setV x b).getV r ≠ s.getV r) : r = x ∨ r = VF := by
  by_contra hr
  obtain ⟨hx, hf⟩ := not_or.mp hr
  exact h ((getV_setV_other hx).trans (getV_setV_other hf))

/-- An instruction's effect changes only the V registers it may write (R27). -/
theorem writesReg_of_getV_ne {i : Instr} {t : State} {r : Reg} (h : (effectOf i t).getV r ≠ t.getV r) : writesReg i r := by
  cases i
  case ldImm | addImm | ldReg | or | and | xor | ldVxDt => exact eq_of_getV_setV_ne h
  case rnd => exact eq_of_getV_setV_ne h
  case addReg | sub | shr | subn | shl => exact eq_or_eq_of_getV_setFlag_setV_ne h
  case drw x y n => exact eq_of_getV_setV_ne (s := (t.drawSprite _ _ _).1) h
  case ldVxMem x =>
    by_contra hr
    exact h ((getV_loadRegs _ _).trans (if_neg fun hm => hr (mem_regsUpTo.mp hm)))
  all_goals exact absurd (getV_congr (congrArg State.v (effectOf_eq_takingWrites _ t))) h

/-- The instructions after which pc need not be at the next one: a transfer sends it anywhere, a skip over one
instruction (R80–R88). -/
def movesPc (i : Instr) (pc0 target : Word) : Prop :=
  match i with
  | .ret | .jp _ | .call _ | .jpV0 _ => True
  | .seImm _ _ | .sneImm _ _ | .seReg _ _ | .sneReg _ _ | .skp _ | .sknp _ => target = pc0 + 4
  | _ => False

/-- A skip that starts behind pc0 leaves pc at pc0 + 2 or pc0 + 4 (R83). -/
theorem skipIf_advance_pc (s : State) (c : Bool) :
    (s.advance.skipIf c).pc = s.pc + 2 ∨ (s.advance.skipIf c).pc = s.pc + 4 := by
  cases c
  · exact .inl rfl
  · exact .inr (BitVec.add_assoc s.pc 2 2)

/-- Where pc is when an instruction completes. -/
theorem retired_pc (i : Instr) (s : State) :
    (s.retired (effectOf i)).pc = s.pc + 2 ∨ movesPc i s.pc (s.retired (effectOf i)).pc := by
  cases i
  case ret | jp | call | jpV0 => exact .inr trivial
  case seImm | sneImm | seReg | sneReg | skp | sknp => exact skipIf_advance_pc s _
  all_goals exact .inl (congrArg State.pc (effectOf_eq_takingWrites _ s.advance))

/-- The instructions R120's table names. -/
def canFault : Instr → Prop
  | .ret | .call _ | .addI _ | .ldB _ | .ldMemVx _ | .ldVxMem _ | .drw _ _ _ | .skp _ | .sknp _ => True
  | _ => False

theorem canFault_of_checkOf {i : Instr} {s : State} {r : Raised} (h : checkOf i s = some r) : canFault i := by
  cases i
  case ret | call | addI | ldB | ldMemVx | ldVxMem | drw | skp | sknp => trivial
  all_goals exact nomatch h

/-- Settles O45: a fault changes the latch only, and a completed instruction what its effect may write, pc and the report. -/
theorem eachPieceOfStateHasItsWriters : Obligations.EachPieceOfStateHasItsWriters := by
  intro i s t h
  rcases exec_cases i s with ⟨r, hr, e⟩ | ⟨-, e⟩ <;> cases e.symm.trans h
  · exact ⟨fun _ => absurd rfl, .inr (.inl ⟨nofun, rfl⟩), absurd rfl, absurd rfl, absurd rfl, absurd rfl,
      (·.elim (absurd rfl) (absurd rfl)), absurd rfl, absurd rfl, fun _ => canFault_of_checkOf hr, .inr ⟨nofun, rfl⟩,
      rfl, rfl, rfl, absurd rfl, rfl, rfl, rfl⟩
  · obtain ⟨keys, fault, executed, cycles, phase, playing, params, outputs⟩ := effectOf_keeps i s.advance
    exact ⟨fun _ => writesReg_of_getV_ne, (retired_pc i s).imp_right .inr, writers_i, writers_stack, writers_dt, writers_st,
      writers_fb_or_dirty, writers_mode, writers_mem, absurd fault, .inl (congrArg (· ++ [s.pc]) executed),
      keys, cycles, params, writers_draws, phase, playing, outputs⟩

end Sys2Proof.Machine
end

section
/-! PROOF. No instruction reads the dirty signal, the report, ST or the outputs (R32, R37, R39, R129). -/

namespace Sys2Proof.Machine

variable {s t : State}

theorem visible_writeBytes (a : Nat) (bs : List Byte) :
    (t.visible.writeBytes a bs).visible = (t.writeBytes a bs).visible := by
  induction bs generalizing t a with
  | nil => rfl
  | cons b bs ih => exact ih (t := t.writeByte a b) (a + 1)

theorem visible_loadRegs (base : Nat) (ks : List Reg) :
    (t.visible.loadRegs base ks).visible = (t.loadRegs base ks).visible := by
  induction ks generalizing t with
  | nil => rfl
  | cons k ks ih => exact ih (t := t.setV k (t.readByte (base + k)))

theorem visible_skipIf (c : Bool) : (t.visible.skipIf c).visible = (t.skipIf c).visible := by cases c <;> rfl

theorem visible_popPc : t.visible.popPc.visible = t.popPc.visible := by
  simp only [State.popPc, State.visible]
  cases t.stack.getLast? <;> rfl

/-- What an instruction's effect leaves to be read depends on what could be read before. -/
theorem visible_effectOf (i : Instr) (t : State) : (effectOf i t.visible).visible = (effectOf i t).visible := by
  cases i
  case ret => exact visible_popPc
  case ldB | ldMemVx => exact visible_writeBytes _ _
  case ldVxMem => exact visible_loadRegs _ _
  case seImm | sneImm | seReg | sneReg | skp | sknp => exact visible_skipIf _
  all_goals rfl

/-- An instruction's check depends on what can be read. -/
theorem checkOf_visible (i : Instr) (s : State) : checkOf i s.visible = checkOf i s := by
  cases i <;> rfl

/-- An instruction run on what can be read of a state leaves what it leaves to be read from the state itself. -/
theorem exec_visible {i : Instr} (h : exec i s = .next t) :
    ∃ u, exec i s.visible = .next u ∧ u.visible = t.visible := by
  rw [exec_eq_attempt] at h ⊢
  rw [checkOf_visible]
  cases hc : checkOf i s with
  | some r => rw [hc] at h; cases h; exact ⟨_, rfl, rfl⟩
  | none => rw [hc] at h; cases h; exact ⟨_, rfl, visible_effectOf i s.advance⟩

/-- Settles O46: both states leave to be read what the instruction leaves from the part they share. -/
theorem noInstructionReadsTheOutputs : Obligations.NoInstructionReadsTheOutputs := by
  intro i s s' t t' hv h h'
  obtain ⟨u, hu, ht⟩ := exec_visible h
  obtain ⟨u', hu', ht'⟩ := exec_visible h'
  rw [hv, hu'] at hu
  cases hu
  exact ht.symm.trans ht'

end Sys2Proof.Machine
end
section
/-! PROOF. The invariant: reset meets it, and every move of the block and every event of the host keep it. A step inside a
tick is split in two: the engine's step keeps the invariant of the state between ticks, and the Scheduler's new phase fits
it. -/

namespace Sys2Proof.Machine

open Sys2Proof.Config

variable {s t : State}

/-! ## Reset -/

/-- A reset block meets the invariant, whatever the budget and the parameters it keeps, if they are legal (R42, R146). -/
theorem resetBlock_inv (hp : s.params.ok) (hc : minCycles ≤ s.cyclesPerTick ∧ s.cyclesPerTick ≤ maxCycles) :
    s.resetBlock.Inv where
  params_ok := hp
  mem_wf := ⟨.nil, nofun⟩
  font_intact := nofun
  pc_le := (by decide : (0x200 : Word).toNat ≤ 0x10FE)
  stack_le := nofun
  stack_limit := fun _ _ => Nat.zero_le _
  fb_wf := ⟨.nil, nofun⟩
  cycles_ok := hc
  fault_idle := absurd rfl
  fault_pc := nofun
  fault_word := nofun
  stepping_ok := nofun
  executed_le := nofun

/-- Settles O57: the state after reset is itself reset. -/
theorem resetMeetsTheInvariant : Obligations.ResetMeetsTheInvariant :=
  resetBlock_inv (s := State.reset) (by decide) (by decide)

/-- Settles O51, field by field of the block after reset. -/
theorem resetClearsTheBlock : Obligations.ResetClearsTheBlock := by
  refine ⟨rfl, fun s hphase => ⟨s.resetBlock, betweenTicks_of_between hphase _, fun r => ?_, rfl, rfl, rfl, rfl, rfl,
    fun a h => ?_, fun a h => ?_, fun _ _ => rfl, fun k => ?_, rfl, rfl, rfl, rfl, rfl, rfl⟩⟩
  · exact Vector.getElem_replicate _
  · exact dif_pos h
  · exact dif_neg (Nat.not_lt.mpr h)
  · exact Vector.getElem_replicate _

/-! ## The phase of the tick -/

/-- Between ticks the phase asks nothing of the rest of the state. -/
theorem State.Inv.idle (h : s.Inv) : { s with phase := .between }.Inv :=
  { h with
    fault_idle := fun hf => ⟨(h.fault_idle hf).1, rfl⟩
    stepping_ok := nofun }

/-- What a phase asks of a state that meets the invariant between ticks. -/
theorem State.Inv.withPhase {p : Phase} (h : { s with phase := .between }.Inv) (hf : s.fault ≠ none → p = .between)
    (hk : ∀ k, p = .stepping k → k < s.cyclesPerTick ∧ s.mode = .running) : { s with phase := p }.Inv :=
  { h with
    fault_idle := fun hfault => ⟨(h.fault_idle hfault).1, hf hfault⟩
    stepping_ok := hk }

/-- The Scheduler's next phase fits a state without a fault (R136). -/
theorem State.Inv.withNextPhase (h : { s with phase := .between }.Inv) (hf : s.fault = none) (done : Nat) :
    { s with phase := nextPhase done s }.Inv := by
  refine h.withPhase (absurd hf) fun k hk => ?_
  rw [nextPhase_eq] at hk
  split at hk
  · next hgo => cases hk; exact ⟨hgo.2, hgo.1⟩
  · cases hk

/-! ## The updates the invariant does not look at -/

theorem State.Inv.clearReport (h : s.Inv) : s.clearReport.Inv := { h with executed_le := nofun }

theorem State.Inv.timerDecay (h : s.Inv) : s.timerDecay.Inv := by
  rw [timerDecay_eq_update]; exact { h with }

theorem State.Inv.presentFrame (h : s.Inv) : s.presentFrame.Inv := { h with }

theorem State.Inv.beginTick (h : s.Inv) : s.beginTick.Inv := by
  by_cases hf : s.fault = none
  · rw [beginTick_of_ok hf]
    exact h.clearReport.idle.withNextPhase (s := s.clearReport) hf 0
  · rwa [beginTick_of_fault hf]

/-! ## The engine's step -/

/-- Taking a fault keeps the invariant, once the tick is ended (R122, R124). -/
theorem State.Inv.takeFault {w : Option Word} {r : Raised} (h : s.Inv) (hm : s.mode = .running)
    (hw : w = none ↔ r.code = .fetchRange) : { s.takeFault w r with phase := .between }.Inv :=
  { h.idle with
    fault_idle := fun _ => ⟨hm, rfl⟩
    fault_pc := by rintro f ⟨⟩; rfl
    fault_word := by rintro f ⟨⟩; exact hw }

/-- Memory's part of the invariant (R44, R45). -/
def State.MemInv (s : State) : Prop := Memory.wf s.params.font s.mem ∧ ∀ c ∈ s.mem, fontSize ≤ c.1

/-- A store that passes its check keeps memory canonical and the font intact (R45, R57). -/
theorem writeBytes_memInv {a : Nat} {bs : List Byte} (h : s.MemInv) (hc : checkAccess a bs.length true = none) :
    (s.writeBytes a bs).MemInv := by
  rcases checkAccess_none.mp hc with h0 | ⟨ha, hf⟩
  · rwa [List.eq_nil_of_length_eq_zero h0]
  · rw [writeBytes_eq_self_but_mem]
    exact ⟨writeBytes_wf h.1 ha, fun c hcell =>
      (mem_writeBytes hcell).elim (fun hnew => (hf rfl).trans hnew.1) (h.2 c)⟩

section
variable {i : Instr}

theorem effectOf_memInv (h : s.Inv) (hc : checkOf i s = none) : (effectOf i s.advance).MemInv := by
  have h0 : s.advance.MemInv := ⟨h.mem_wf, h.font_intact⟩
  by_cases hm : (effectOf i s.advance).mem = s.advance.mem
  · obtain ⟨-, -, -, -, -, -, params, -⟩ := effectOf_keeps i s.advance
    rwa [State.MemInv, hm, params]
  · rcases writers_mem hm with ⟨x, rfl⟩ | ⟨x, rfl⟩
    · exact writeBytes_memInv h0 hc
    · refine writeBytes_memInv h0 ?_
      rw [State.regBytes, List.length_map, length_regsUpTo]
      exact hc

/-- The pc a completed step advances from is at most 0xFFE, so the next instruction's address is at most 0x1000. -/
theorem advance_pc_le (hpc : s.pc.toNat ≤ 0xFFE) : s.advance.pc.toNat ≤ 0x1000 := by
  rw [advance_pc]; bv_omega

/-- pc's bound (R29): the next two instructions lie at most at 0x1002, a jump's target is at most 0xFFF, an indexed one's at
most 0xFFF + 0xFF, and a return address at most 0x1000. -/
theorem retired_pc_le (h : s.Inv) (hpc : s.pc.toNat ≤ 0xFFE) : (s.retired (effectOf i)).pc.toNat ≤ 0x10FE := by
  rcases retired_pc i s with hnext | hmoves
  · rw [hnext]; bv_omega
  · cases i <;> simp only [movesPc] at hmoves
    case jp nnn | call nnn =>
      show (addrWord nnn).toNat ≤ 0x10FE
      rw [addrWord]; bv_omega
    case jpV0 nnn =>
      show (addrWord nnn + (s.getV 0).setWidth 16).toNat ≤ 0x10FE
      rw [addrWord]; bv_omega
    case ret =>
      show s.advance.popPc.pc.toNat ≤ 0x10FE
      rcases popPc_cases (s := s.advance) with e | ⟨a, ha, e⟩ <;> rw [e]
      · exact (advance_pc_le hpc).trans (by decide)
      · exact (h.stack_le a ha).trans (by decide)
    case seImm | sneImm | seReg | sneReg | skp | sknp => rw [hmoves]; bv_omega

theorem effectOf_stack_le (h : s.Inv) (hpc : s.pc.toNat ≤ 0xFFE) :
    ∀ a ∈ (effectOf i s.advance).stack, a.toNat ≤ 0x1000 := by
  by_cases hs : (effectOf i s.advance).stack = s.advance.stack
  · rw [hs]; exact h.stack_le
  · rcases writers_stack hs with rfl | ⟨nnn, rfl⟩
    · show ∀ a ∈ s.advance.popPc.stack, a.toNat ≤ 0x1000
      rcases popPc_cases (s := s.advance) with e | ⟨_, -, e⟩ <;> rw [e]
      · exact h.stack_le
      · exact fun a ha => h.stack_le a (List.mem_of_mem_dropLast ha)
    · intro a ha
      rcases List.mem_append.mp ha with hold | hnew
      · exact h.stack_le a hold
      · rw [List.mem_singleton.mp hnew]
        exact advance_pc_le hpc

theorem effectOf_stack_limit (h : s.Inv) (hc : checkOf i s = none) {n : Nat} (hn : s.params.stackLimit = some n) :
    (effectOf i s.advance).stack.length ≤ n := by
  have hle : s.stack.length ≤ n := h.stack_limit n hn
  by_cases hs : (effectOf i s.advance).stack = s.advance.stack
  · rwa [hs]
  · rcases writers_stack hs with rfl | ⟨nnn, rfl⟩
    · show s.advance.popPc.stack.length ≤ n
      rcases popPc_cases (s := s.advance) with e | ⟨_, -, e⟩ <;> rw [e]
      · exact hle
      · exact (List.dropLast_sublist _).length_le.trans hle
    · have hne : s.stack.length ≠ n := fun e => by
        have hfull : callCheck s = some ⟨.stackOverflow, none⟩ := callCheck_eq_some.mpr ⟨by rw [hn, e], rfl⟩
        exact absurd (hc.symm.trans hfull) nofun
      show (s.stack ++ [s.advance.pc]).length ≤ n
      rw [List.length_append, List.length_singleton]
      omega

theorem effectOf_fb_wf (h : s.Inv) :
    Framebuffer.wf s.params.fbWidth s.params.fbHeight (effectOf i s.advance).fb := by
  by_cases hf : (effectOf i s.advance).fb = s.advance.fb
  · rw [hf]; exact h.fb_wf
  · rcases writers_fb_or_dirty (.inl hf) with rfl | ⟨x, y, n, rfl⟩
    · exact ⟨.nil, nofun⟩
    · exact drawSprite_wf (s := s.advance) h.params_ok h.fb_wf

/-- A completed instruction keeps the invariant of the state between ticks. -/
theorem State.Inv.retired (h : s.Inv) (hf : s.fault = none) (hpc : s.pc.toNat ≤ 0xFFE) (hc : checkOf i s = none) :
    { s.retired (effectOf i) with phase := .between }.Inv := by
  obtain ⟨-, fault, executed, cycles, -, -, params, -⟩ := effectOf_keeps i s.advance
  have hparams : (s.retired (effectOf i)).params = s.params := params
  have hcycles : (s.retired (effectOf i)).cyclesPerTick = s.cyclesPerTick := cycles
  have hexecuted : (s.retired (effectOf i)).executed = s.executed ++ [s.pc] := congrArg (· ++ [s.pc]) executed
  have hfault : (s.retired (effectOf i)).fault = none := fault.trans hf
  exact {
    params_ok := by simpa only [hparams] using h.params_ok
    mem_wf := (effectOf_memInv h hc).1
    font_intact := (effectOf_memInv h hc).2
    pc_le := retired_pc_le h hpc
    stack_le := effectOf_stack_le h hpc
    stack_limit := fun n hn => effectOf_stack_limit h hc ((congrArg Params.stackLimit params).symm.trans hn)
    fb_wf := by
      show Framebuffer.wf (s.retired (effectOf i)).params.fbWidth (s.retired (effectOf i)).params.fbHeight _
      rw [hparams]
      exact effectOf_fb_wf h
    cycles_ok := by simpa only [hcycles] using h.cycles_ok
    fault_idle := absurd hfault
    fault_pc := fun f hsome => nomatch hfault.symm.trans hsome
    fault_word := fun f hsome => nomatch hfault.symm.trans hsome
    stepping_ok := nofun
    executed_le := by
      intro a ha
      rw [hexecuted] at ha
      rcases List.mem_append.mp ha with hold | hnew
      · exact h.executed_le a hold
      · rwa [List.mem_singleton.mp hnew] }

end

/-- An instruction keeps the invariant of the state between ticks: it takes its fault or completes. -/
theorem State.Inv.exec {i : Instr} (h : s.Inv) (hf : s.fault = none) (hm : s.mode = .running) (hpc : s.pc.toNat ≤ 0xFFE)
    (e : Sys2Proof.Machine.exec i s = .next t) : { t with phase := .between }.Inv := by
  rcases exec_cases i s with ⟨r, hr, e'⟩ | ⟨hc, e'⟩ <;> cases e'.symm.trans e
  · exact h.takeFault hm ⟨nofun, fun hcode => absurd hcode (checkOf_code hr)⟩
  · exact h.retired hf hpc hc

/-- A step of the engine keeps the invariant of the state between ticks. -/
theorem State.Inv.engineStep (h : s.Inv) (e : Sys2Proof.Machine.engineStep s = .next t) :
    { t with phase := .between }.Inv := by
  rcases engineStep_cases s with ⟨-, e'⟩ | ⟨he, -, e'⟩ | ⟨he, hpc, e'⟩
  · cases e'.symm.trans e; exact h.idle
  · cases e'.symm.trans e; exact h.takeFault (stepEnabled_iff.mp he).2 ⟨fun _ => rfl, fun _ => rfl⟩
  · obtain ⟨hf, hm⟩ := stepEnabled_iff.mp he
    exact h.exec hf hm hpc (e'.symm.trans e)

/-! ## The block's moves -/

/-- After a step of a tick the phase fits: a fault has ended the tick, and otherwise the next move is chosen (R136). -/
theorem State.Inv.afterStep (h : { t with phase := .between }.Inv) (done : Nat) : (t.afterStep done).Inv := by
  unfold State.afterStep
  split
  · exact h
  · next hf => exact h.withNextPhase (by simpa using hf) (done + 1)

theorem State.Inv.tickMove (h : s.Inv) (e : Sys2Proof.Machine.tickMove s = .next t) : t.Inv := by
  unfold Sys2Proof.Machine.tickMove at e
  cases hp : s.phase with
  | between => rw [hp] at e; cases e; exact h
  | stepping done =>
    obtain ⟨u, hu⟩ := engineStep_next s
    rw [hp, hu] at e
    cases e
    exact (h.engineStep hu).afterStep done
  | finishing => rw [hp] at e; cases e; exact h.timerDecay.presentFrame.idle

/-- Settles O58: between ticks a playing host's step begins a tick and moves in it, a paused one's does nothing, and inside
a tick the step is the tick's next move. -/
theorem stepKeepsTheInvariant : Obligations.StepKeepsTheInvariant := by
  intro s t h e
  unfold step schedulerStep at e
  split at e
  · exact h.beginTick.tickMove e
  · exact h.tickMove e

/-! ## The host's events -/

/-- An event that may come only between ticks is answered only there (R138). -/
theorem betweenTicks_eq_next {o : Host.Outcome State Fault Refusal} :
    s.betweenTicks o = .next t ↔ s.phase = .between ∧ o = .next t := by
  by_cases hp : s.phase = .between <;> simp [State.betweenTicks, hp]

/-- An image that fits keeps the invariant of the reset block: it lies above the font region and ends inside memory
(R148, R149). -/
theorem State.Inv.loadImage {bytes : List Byte} (h : s.Inv) (hb : bytes.length ≤ maxImage) : (s.loadImage bytes).Inv := by
  have hr : s.resetBlock.Inv := resetBlock_inv h.params_ok h.cycles_ok
  have hpass : checkAccess programBase bytes.length true = none :=
    checkAccess_none.mpr (.inr (by simp only [programBase, memSize, maxImage, fontSize] at *; omega))
  obtain ⟨hwf, hfont⟩ := writeBytes_memInv ⟨hr.mem_wf, hr.font_intact⟩ hpass
  rw [State.loadImage, writeBytes_eq_self_but_mem]
  rw [writeBytes_eq_self_but_mem] at hwf
  exact { hr with mem_wf := hwf, font_intact := hfont }

/-- A key event changes keys, a register, and a held engine to a running one: none of it breaks the invariant (R131). -/
theorem State.Inv.setKey {k : Fin 16} {p : Bool} (h : s.Inv) : (s.setKey k p).Inv := by
  simp only [State.setKey]
  split
  · split
    · exact { h with
        fault_idle := fun hf => ⟨rfl, (h.fault_idle hf).2⟩
        stepping_ok := fun k hk => ⟨(h.stepping_ok k hk).1, rfl⟩ }
    · exact { h with }
  · exact { h with }

/-- A single step between ticks keeps the invariant (R139). -/
theorem State.Inv.stepOnceWith {decays : Bool} (h : s.Inv) (hp : s.phase = .between)
    (e : Sys2Proof.Machine.stepOnceWith decays s = .next t) : t.Inv := by
  obtain ⟨u, hu⟩ := engineStep_next s.clearReport
  obtain ⟨-, hphase, -⟩ := engineStep_keeps hu
  have hi : u.Inv := by
    have hidle := h.clearReport.engineStep hu
    rwa [← hp, ← clearReport_phase, ← hphase] at hidle
  unfold Sys2Proof.Machine.stepOnceWith at e
  rw [hu] at e
  split at e
  · cases e
    split
    · exact hi
    · cases decays
      · exact hi.presentFrame
      · exact hi.timerDecay.presentFrame
  · cases e; exact h

/-- Every event the block accepts keeps the invariant (R138, R142). -/
theorem State.Inv.handle {ev : HostEvent} (h : s.Inv) (e : s.handle ev = .next t) : t.Inv := by
  cases ev with
  | reset =>
    obtain ⟨-, e⟩ := betweenTicks_eq_next.mp e
    cases e; exact resetBlock_inv h.params_ok h.cycles_ok
  | load bytes =>
    obtain ⟨-, e⟩ := betweenTicks_eq_next.mp e
    split at e
    · next hb => cases e; exact h.loadImage hb
    · cases e
  | tick =>
    obtain ⟨-, e⟩ := betweenTicks_eq_next.mp e
    cases e; exact h.beginTick
  | stepOnce =>
    obtain ⟨hp, e⟩ := betweenTicks_eq_next.mp e
    exact h.stepOnceWith hp e
  | setKey code pressed =>
    simp only [State.handle] at e
    split at e
    · cases e; exact h.setKey
    · cases e
  | setCyclesPerTick n =>
    obtain ⟨hp, e⟩ := betweenTicks_eq_next.mp e
    split at e
    · next hn =>
      cases e
      exact { h with cycles_ok := hn, stepping_ok := fun k hk => nomatch hp.symm.trans hk }
    · cases e
  | play => cases e; exact { h with }
  | pause => cases e; exact { h with }

/-! ## The reachable states -/

/-- Every reachable state meets the invariant. -/
theorem Reachable.inv (h : Reachable s) : s.Inv := by
  induction h with
  | powerOn p hp =>
    have hc : minCycles ≤ powerOnCycles ∧ powerOnCycles ≤ maxCycles := by decide
    exact resetBlock_inv (s := { State.reset with params := p }) hp hc
  | move m _ e ih =>
    cases m with
    | step => exact stepKeepsTheInvariant _ _ ih e
    | event ev => exact ih.handle e

/-- Where no cell lies in the font region, its bytes are FONT (R45). -/
theorem State.Inv.readByte_font (h : s.Inv) {a : Nat} (ha : a < 80) : s.readByte a = s.params.font[a] := by
  have hbelow : ∀ c ∈ s.mem, a < c.1 := fun c hc => Nat.lt_of_lt_of_le ha (h.font_intact c hc)
  exact (Memory.read_of_lt hbelow).trans (dif_pos ha)

/-- Settles O60, by the invariant of the reachable states. -/
theorem reachableStatesKeepFontAndPcBound : Obligations.ReachableStatesKeepFontAndPcBound := by
  intro s hs
  exact ⟨hs.inv.pc_le, fun _ => hs.inv.readByte_font, fun hf => (hs.inv.fault_idle hf).1⟩

end Sys2Proof.Machine
end

section
/-! PROOF. Memory as the fetch sees it: an enabled step decodes the word of the two bytes at pc, takes FETCH_RANGE where they
do not both exist, and reads what the step before it stored; a playing host's tick begins with such a step (R53, R61, R75,
R136, R155). -/

namespace Sys2Proof.Machine

variable {s t : State} {i : Instr} {x : Reg} {stored : List Byte}

/-! ## The fetch of an enabled step -/

/-- An enabled step whose two bytes exist is the decoded instruction's (R53, R75). -/
theorem engineStep_of_fetch (hf : s.fault = none) (hm : s.mode = .running) (hpc : s.pc.toNat ≤ 0xFFE) :
    engineStep s = exec (decode (s.readByte s.pc.toNat ++ s.readByte (s.pc.toNat + 1))) s := by
  unfold engineStep
  rw [if_pos (stepEnabled_iff.mpr ⟨hf, hm⟩), fetch_ok hpc]
  rfl

/-- An enabled step whose second byte does not exist takes FETCH_RANGE (R53). -/
theorem engineStep_of_fetchRange (hf : s.fault = none) (hm : s.mode = .running) (hpc : 0xFFE < s.pc.toNat) :
    engineStep s = .next (s.takeFault none ⟨.fetchRange, some s.pc.toNat⟩) := by
  unfold engineStep
  rw [if_pos (stepEnabled_iff.mpr ⟨hf, hm⟩), fetch_error hpc]

/-- Settles O9: inside a tick the block's step is the engine's, and the latch it leaves set ends the tick. -/
theorem fetchAboveMemoryFaults : Obligations.FetchAboveMemoryFaults := by
  intro s hf hm hpc
  have hstep := engineStep_of_fetchRange hf hm (Nat.lt_of_succ_lt_succ hpc)
  exact ⟨hstep, fun k hk => step_of_stepping hk hstep⟩

/-! ## A step after a store -/

/-- Bytes with the decimal digits of b as values are the ones LD B, Vx stores (R105). -/
theorem eq_decimalDigits {b : Byte}
    (h : stored.map BitVec.toNat = [b.toNat / 100, b.toNat / 10 % 10, b.toNat % 10]) : stored = decimalDigits b := by
  have hdigits : (decimalDigits b).map BitVec.toNat = [b.toNat / 100, b.toNat / 10 % 10, b.toNat % 10] := by
    simp only [decimalDigits, List.map_cons, List.map_nil, BitVec.toNat_ofNat, List.cons.injEq, and_true]
    omega
  exact List.map_injective_iff.mpr (fun _ _ => BitVec.eq_of_toNat_eq) (h.trans hdigits.symm)

/-- x + 1 bytes that hold V[0] … V[x] are the ones LD [I], Vx stores (R106). -/
theorem eq_regBytes (hlen : stored.length = x + 1) (h : ∀ k : Reg, k ≤ x → stored[k.val]? = some (s.getV k)) :
    stored = s.regBytes x := by
  have hlen' : (s.regBytes x).length = x + 1 := by rw [State.regBytes, List.length_map, length_regsUpTo]
  refine List.ext_getElem (hlen.trans hlen'.symm) fun n hn hn' => ?_
  have hx : n ≤ x.val := by omega
  have hk := h ⟨n, by omega⟩ hx
  rw [List.getElem?_eq_getElem hn, Option.some.injEq] at hk
  rw [hk, ← getElem_regBytes (x := x) (k := ⟨n, by omega⟩) hx hn']

/-- The state a store of the given bytes from I on leaves when it completes (R105, R106). -/
def State.afterStore (s : State) (stored : List Byte) : State := s.retired fun t => t.writeBytes t.dataBase stored

/-- LD B, Vx completes where its three bytes lie outside the font region and inside memory (R57, R105). -/
theorem exec_ldB_eq_afterStore (hlo : 0x50 ≤ s.i.toNat) (hhi : s.i.toNat + 3 ≤ 0x1000) :
    exec (.ldB x) s = .next (s.afterStore (decimalDigits (s.getV x))) := by
  have hpass : checkOf (.ldB x) s = none := checkAccess_none.mpr (.inr ⟨hhi, fun _ => hlo⟩)
  rw [exec_eq_attempt, hpass]
  rfl

/-- LD [I], Vx completes where its x + 1 bytes lie outside the font region and inside memory (R57, R106). -/
theorem exec_ldMemVx_eq_afterStore (hlo : 0x50 ≤ s.i.toNat) (hhi : s.i.toNat + (x + 1) ≤ 0x1000) :
    exec (.ldMemVx x) s = .next (s.afterStore (s.regBytes x)) := by
  have hpass : checkOf (.ldMemVx x) s = none := checkAccess_none.mpr (.inr ⟨hhi, fun _ => hlo⟩)
  rw [exec_eq_attempt, hpass]
  rfl

/-- A completed store reads as stored where it reached and as before elsewhere (R61). -/
theorem readByte_afterStore (hw : Memory.wf s.params.font s.mem) (h : s.i.toNat + stored.length ≤ 0x1000) (a : Nat) :
    (s.afterStore stored).readByte a =
      if s.i.toNat ≤ a then stored.getD (a - s.i.toNat) (s.readByte a) else s.readByte a := by
  have hread : (s.afterStore stored).readByte a = (s.advance.writeBytes s.i.toNat stored).readByte a := rfl
  rw [hread, readByte_writeBytes (s := s.advance) hw h]
  by_cases hge : s.i.toNat ≤ a
  · by_cases hlt : a - s.i.toNat < stored.length <;> simp [hge, hlt]
  · simp [hge]

/-- A completed store changes memory, pc and the report only. -/
theorem afterStore_eq_self_but_mem : s.afterStore stored =
    { s with pc := s.pc + 2, mem := (s.afterStore stored).mem, executed := s.executed ++ [s.pc] } := by
  show (s.advance.writeBytes s.i.toNat stored).report s.pc = _
  rw [writeBytes_eq_self_but_mem]
  rfl

/-- Settles O13: the store completes, its bytes read as stored, and the state it leaves is enabled with pc two bytes on. -/
theorem storeIsSeenByTheNextFetch : Obligations.StoreIsSeenByTheNextFetch := by
  intro s i x stored hw hf hm hpc hi hstored hlo hhi now
  have hexec : exec i s = .next (s.afterStore stored) := by
    rcases hstored with ⟨rfl, hdigits⟩ | ⟨rfl, hlen, hregs⟩
    · obtain rfl := eq_decimalDigits hdigits
      exact exec_ldB_eq_afterStore hlo hhi
    · obtain rfl := eq_regBytes hlen hregs
      exact exec_ldMemVx_eq_afterStore hlo (hlen ▸ hhi)
  have hstep : engineStep s = .next (s.afterStore stored) := by
    rw [engineStep_of_fetch hf hm (hpc.trans (by decide)), hi, hexec]
  have hread : ∀ a, (s.afterStore stored).readByte a = now a := readByte_afterStore hw hhi
  have hf' : (s.afterStore stored).fault = none := by rw [afterStore_eq_self_but_mem]; exact hf
  have hm' : (s.afterStore stored).mode = .running := by rw [afterStore_eq_self_but_mem]; exact hm
  have hpc' : (s.afterStore stored).pc.toNat = s.pc.toNat + 2 := by rw [afterStore_eq_self_but_mem]; bv_omega
  refine ⟨_, hstep, hread, ?_⟩
  rw [engineStep_of_fetch hf' hm' (by omega), hpc', hread, hread]

/-! ## The step of a playing host: the phase of the tick does not matter to an instruction -/

theorem writeBytes_withPhase (p : Phase) (a : Nat) (bs : List Byte) :
    { t with phase := p }.writeBytes a bs = { t.writeBytes a bs with phase := p } := by
  induction bs generalizing t a with
  | nil => rfl
  | cons b bs ih => exact ih (t := t.writeByte a b) (a + 1)

theorem loadRegs_withPhase (p : Phase) (base : Nat) (ks : List Reg) :
    { t with phase := p }.loadRegs base ks = { t.loadRegs base ks with phase := p } := by
  induction ks generalizing t with
  | nil => rfl
  | cons k ks ih => exact ih (t := t.setV k (t.readByte (base + k)))

theorem skipIf_withPhase (p : Phase) (c : Bool) :
    { t with phase := p }.skipIf c = { t.skipIf c with phase := p } := by
  cases c <;> rfl

theorem popPc_withPhase (p : Phase) : { t with phase := p }.popPc = { t.popPc with phase := p } := by
  simp only [State.popPc]
  cases t.stack.getLast? <;> rfl

theorem effectOf_withPhase (i : Instr) (p : Phase) (t : State) :
    effectOf i { t with phase := p } = { effectOf i t with phase := p } := by
  cases i
  case ret => exact popPc_withPhase p
  case ldB | ldMemVx => exact writeBytes_withPhase p _ _
  case ldVxMem => exact loadRegs_withPhase p _ _
  case seImm | sneImm | seReg | sneReg | skp | sknp => exact skipIf_withPhase p _
  all_goals rfl

/-- No instruction reads or writes the tick's phase (R136). -/
theorem exec_withPhase (h : exec i s = .next t) (p : Phase) :
    exec i { s with phase := p } = .next { t with phase := p } := by
  have hcheck : checkOf i { s with phase := p } = checkOf i s := by cases i <;> rfl
  rw [exec_eq_attempt] at h ⊢
  rw [hcheck]
  cases hc : checkOf i s with
  | some r => rw [hc] at h; cases h; rfl
  | none =>
    rw [hc] at h; cases h
    exact congrArg (fun u => Host.Outcome.next (u.report s.pc)) (effectOf_withPhase i p s.advance)

/-- The phase after a step of a tick, as R136's loop condition gives it. -/
theorem afterStep_eq (done : Nat) : t.afterStep done = { t with phase :=
    if t.fault ≠ none then .between
    else if t.mode = .running ∧ done + 1 < t.cyclesPerTick then .stepping (done + 1) else .finishing } := by
  simp only [State.afterStep, nextPhase_eq, Option.isSome_iff_ne_none]

/-- Settles O7: the step of a playing host begins a tick, with its report clear, and makes that tick's first step. -/
theorem stepRunsTheDecodedInstruction : Obligations.StepRunsTheDecodedInstruction := by
  intro s i hf hm hpc hi
  refine ⟨hi ▸ engineStep_of_fetch hf hm hpc, fun hphase hplaying hbudget => ?_⟩
  have hclear : engineStep s.clearReport = exec i s.clearReport := hi ▸ engineStep_of_fetch hf hm hpc
  obtain ⟨t, ht⟩ := engineStep_next s.clearReport
  rw [hclear] at ht
  have hbegin : s.beginTick = { s.clearReport with phase := .stepping 0 } := by
    rw [beginTick_of_ok hf, nextPhase_eq, if_pos ⟨hm, hbudget⟩]
    rfl
  have hfirst : engineStep s.beginTick = .next { t with phase := .stepping 0 } := by
    rw [hbegin, ← exec_withPhase ht (.stepping 0)]
    exact hi ▸ engineStep_of_fetch hf hm hpc
  refine ⟨t, ht, ?_⟩
  rw [step_of_playing hphase hplaying, ← step_of_tick (s := s.beginTick) (by simp [hbegin]),
    step_of_stepping (by rw [hbegin]) hfirst, afterStep_eq]

end Sys2Proof.Machine
end

section
/-! PROOF. On the well-formed instructions decoding and encoding are inverse to each other: a row's format is taken apart and
put together again, and the words of R70's list are those no row of the opcode map selects (R64–R72). -/

namespace Sys2Proof

variable {op low : BitVec 4} {nnn : Addr} {x y : Reg} {n : Fin 16} {nn : Byte} {w v : Word} {k : Nat}

/-! ## The unassigned words (R70) -/

theorem fieldOp_cases (w : Word) :
    fieldOp w = 0x0 ∨ fieldOp w = 0x1 ∨ fieldOp w = 0x2 ∨ fieldOp w = 0x3 ∨ fieldOp w = 0x4 ∨ fieldOp w = 0x5 ∨
    fieldOp w = 0x6 ∨ fieldOp w = 0x7 ∨ fieldOp w = 0x8 ∨ fieldOp w = 0x9 ∨ fieldOp w = 0xA ∨ fieldOp w = 0xB ∨
    fieldOp w = 0xC ∨ fieldOp w = 0xD ∨ fieldOp w = 0xE ∨ fieldOp w = 0xF := by
  generalize fieldOp w = op
  revert op
  decide

/-- The unassigned words, as a proposition on the fields R70's list names. -/
theorem unassigned_iff_listed : unassigned w = true ↔
    (fieldOp w = 0x0 ∧ w ≠ 0x00E0 ∧ w ≠ 0x00EE) ∨
    (fieldOp w = 0x5 ∧ fieldLow w ≠ 0x0) ∨
    (fieldOp w = 0x8 ∧ fieldLow w ∈ [0x8, 0x9, 0xA, 0xB, 0xC, 0xD, 0xF]) ∨
    (fieldOp w = 0x9 ∧ fieldLow w ≠ 0x0) ∨
    (fieldOp w = 0xE ∧ fieldNN w ∉ [0x9E, 0xA1]) ∨
    (fieldOp w = 0xF ∧ fieldNN w ∉ [0x07, 0x0A, 0x15, 0x18, 0x1E, 0x29, 0x33, 0x55, 0x65]) := by
  simp only [unassigned]
  rw [← fieldOp, ← fieldLow, ← fieldNN]
  rcases fieldOp_cases w with h | h | h | h | h | h | h | h | h | h | h | h | h | h | h | h <;> simp [h]

/-- The low nibbles R70 lists for op 8 are those that no ALU row has. -/
theorem mem_unassignedLow (low : BitVec 4) :
    low ∈ [0x8, 0x9, 0xA, 0xB, 0xC, 0xD, 0xF] ↔ low ∉ [0x0, 0x1, 0x2, 0x3, 0x4, 0x5, 0x6, 0x7, 0xE] := by
  revert low
  decide

/-- Two words are the same exactly when their op and nnn fields are. -/
theorem eq_iff_fields : w = v ↔ fieldOp w = fieldOp v ∧ fieldNNN w = fieldNNN v :=
  ⟨fun h => h ▸ ⟨rfl, rfl⟩, fun ⟨hop, hnnn⟩ => by rw [← formatA_fields (w := w), hop, hnnn, formatA_fields]⟩

/-- The words of R70's list are those that select no row of the opcode map. The masks of R67 test fields, and for each value of
the op field the two sides ask the same of the other fields. -/
theorem unassigned_iff_selects_none : unassigned w = true ↔ ∀ r ∈ opcodeMap, r.selects w = false := by
  rw [unassigned_iff_listed, mem_unassignedLow, ne_eq w, ne_eq w, eq_iff_fields, eq_iff_fields (v := 0x00EE)]
  simp (disch := decide) only [opcodeMap, rowsOp, rowsAlu, rowsHigh, rowsByte, List.cons_append, List.nil_append,
    List.forall_mem_cons, selects_op, selects_opLow, selects_opByte, selects_word]
  have hop := fieldOp_cases w
  simp only [fieldOp, fieldLow, fieldNN, fieldNNN, BitVec.reduceExtractLsb'] at hop ⊢
  rcases hop with h | h | h | h | h | h | h | h | h | h | h | h | h | h | h | h <;> simp [h]

/-! ## The word of an instruction decodes to it: one lemma for each format, given the instruction's row -/

theorem decode_formatA {g : Addr → Instr} (h : opcodeMap[k]? = some ⟨formatA op 0, 0xF000, fun w => g (fieldNNN w)⟩) :
    decode (formatA op nnn) = g nnn := by
  rw [decode_of_op h (by simp) (by simp), fieldNNN_formatA]

theorem decode_formatXB {g : Reg → Byte → Instr}
    (h : opcodeMap[k]? = some ⟨formatA op 0, 0xF000, fun w => g (fieldX w) (fieldNN w)⟩) :
    decode (formatXB op x nn) = g x nn := by
  rw [decode_of_op h (by simp) (by simp), fieldX_formatXB, fieldNN_formatXB]

theorem decode_formatXY {g : Reg → Reg → Instr}
    (h : opcodeMap[k]? = some ⟨formatXY op 0 0 low, 0xF00F, fun w => g (fieldX w) (fieldY w)⟩) :
    decode (formatXY op x y low) = g x y := by
  rw [decode_of_opLow h (by simp) (by simp) (by simp), fieldX_formatXY, fieldY_formatXY]

theorem decode_formatX {g : Reg → Instr} (h : opcodeMap[k]? = some ⟨formatX op 0 nn, 0xF0FF, fun w => g (fieldX w)⟩) :
    decode (formatX op x nn) = g x := by
  rw [formatX_eq] at h ⊢
  rw [decode_of_opByte h (by simp) (by simp) (by simp), fieldX_formatXB]

theorem decode_formatXYN {g : Reg → Reg → Fin 16 → Instr}
    (h : opcodeMap[k]? = some ⟨formatA op 0, 0xF000, fun w => g (fieldX w) (fieldY w) (fieldN w)⟩) :
    decode (formatXY op x y (nibble n)) = g x y n := by
  rw [decode_of_op h (by simp) (by simp), fieldX_formatXY, fieldY_formatXY, fieldN, fieldLow_formatXY, toFin_nibble]

/-- Settles O1, constructor by constructor: row k of the opcode map, counted from 0, builds the instruction from the fields
of its word, and a NOP's word selects no row. -/
theorem encodedInstructionsDecodeBack : Obligations.EncodedInstructionsDecodeBack := by
  intro i hwf
  cases i with
  | cls => rfl
  | ret => rfl
  | jp => exact decode_formatA (k := 2) rfl
  | call => exact decode_formatA (k := 3) rfl
  | seImm => exact decode_formatXB (k := 4) rfl
  | sneImm => exact decode_formatXB (k := 5) rfl
  | seReg => exact decode_formatXY (k := 6) rfl
  | ldImm => exact decode_formatXB (k := 7) rfl
  | addImm => exact decode_formatXB (k := 8) rfl
  | ldReg => exact decode_formatXY (k := 9) rfl
  | or => exact decode_formatXY (k := 10) rfl
  | and => exact decode_formatXY (k := 11) rfl
  | xor => exact decode_formatXY (k := 12) rfl
  | addReg => exact decode_formatXY (k := 13) rfl
  | sub => exact decode_formatXY (k := 14) rfl
  | shr => exact decode_formatXY (k := 15) rfl
  | subn => exact decode_formatXY (k := 16) rfl
  | shl => exact decode_formatXY (k := 17) rfl
  | sneReg => exact decode_formatXY (k := 18) rfl
  | ldI => exact decode_formatA (k := 19) rfl
  | jpV0 => exact decode_formatA (k := 20) rfl
  | rnd => exact decode_formatXB (k := 21) rfl
  | drw => exact decode_formatXYN (k := 22) rfl
  | skp => exact decode_formatX (k := 23) rfl
  | sknp => exact decode_formatX (k := 24) rfl
  | ldVxDt => exact decode_formatX (k := 25) rfl
  | ldVxK => exact decode_formatX (k := 26) rfl
  | ldDtVx => exact decode_formatX (k := 27) rfl
  | ldStVx => exact decode_formatX (k := 28) rfl
  | addI => exact decode_formatX (k := 29) rfl
  | ldF => exact decode_formatX (k := 30) rfl
  | ldB => exact decode_formatX (k := 31) rfl
  | ldMemVx => exact decode_formatX (k := 32) rfl
  | ldVxMem => exact decode_formatX (k := 33) rfl
  | nop w => exact decode_of_selects_none (unassigned_iff_selects_none.mp hwf)

/-! ## A word that selects a row is the word of the instruction the row builds -/

/-- A row builds from every word that selects it a well-formed instruction whose word it is. -/
def Row.EncodesBack (r : Row) : Prop :=
  ∀ w, r.selects w = true → (r.build w).wellFormed = true ∧ encode (r.build w) = w

theorem encodesBack_of_word {i : Instr} (hi : i.wellFormed = true ∧ encode i = v) :
    Row.EncodesBack ⟨v, 0xFFFF, fun _ => i⟩ := by
  intro w hs
  rw [selects_word, Bool.and_eq_true, beq_iff_eq, beq_iff_eq, ← eq_iff_fields] at hs
  rwa [hs]

theorem encodesBack_of_formatA {g : Addr → Instr} (hv : v = formatA (fieldOp v) 0)
    (hg : ∀ nnn, (g nnn).wellFormed = true ∧ encode (g nnn) = formatA (fieldOp v) nnn) :
    Row.EncodesBack ⟨v, 0xF000, fun w => g (fieldNNN w)⟩ := by
  intro w hs
  rw [selects_op hv, beq_iff_eq] at hs
  obtain ⟨hwf, he⟩ := hg (fieldNNN w)
  exact ⟨hwf, by rw [he, ← hs, formatA_fields]⟩

theorem encodesBack_of_formatXB {g : Reg → Byte → Instr} (hv : v = formatA (fieldOp v) 0)
    (hg : ∀ x nn, (g x nn).wellFormed = true ∧ encode (g x nn) = formatXB (fieldOp v) x nn) :
    Row.EncodesBack ⟨v, 0xF000, fun w => g (fieldX w) (fieldNN w)⟩ := by
  intro w hs
  rw [selects_op hv, beq_iff_eq] at hs
  obtain ⟨hwf, he⟩ := hg (fieldX w) (fieldNN w)
  exact ⟨hwf, by rw [he, ← hs, formatXB_fields]⟩

theorem encodesBack_of_formatXY {g : Reg → Reg → Instr} (hv : v = formatXY (fieldOp v) 0 0 (fieldLow v))
    (hg : ∀ x y, (g x y).wellFormed = true ∧ encode (g x y) = formatXY (fieldOp v) x y (fieldLow v)) :
    Row.EncodesBack ⟨v, 0xF00F, fun w => g (fieldX w) (fieldY w)⟩ := by
  intro w hs
  rw [selects_opLow hv, Bool.and_eq_true, beq_iff_eq, beq_iff_eq] at hs
  obtain ⟨hop, hlow⟩ := hs
  obtain ⟨hwf, he⟩ := hg (fieldX w) (fieldY w)
  exact ⟨hwf, by rw [he, ← hop, ← hlow, formatXY_fields]⟩

theorem encodesBack_of_formatXYN {g : Reg → Reg → Fin 16 → Instr} (hv : v = formatA (fieldOp v) 0)
    (hg : ∀ x y n, (g x y n).wellFormed = true ∧ encode (g x y n) = formatXY (fieldOp v) x y (nibble n)) :
    Row.EncodesBack ⟨v, 0xF000, fun w => g (fieldX w) (fieldY w) (fieldN w)⟩ := by
  intro w hs
  rw [selects_op hv, beq_iff_eq] at hs
  obtain ⟨hwf, he⟩ := hg (fieldX w) (fieldY w) (fieldN w)
  exact ⟨hwf, by rw [he, ← hs]; exact formatXY_fields⟩

theorem encodesBack_of_formatX {g : Reg → Instr} (hv : v = formatXB (fieldOp v) 0 (fieldNN v))
    (hg : ∀ x, (g x).wellFormed = true ∧ encode (g x) = formatX (fieldOp v) x (fieldNN v)) :
    Row.EncodesBack ⟨v, 0xF0FF, fun w => g (fieldX w)⟩ := by
  intro w hs
  rw [selects_opByte hv, Bool.and_eq_true, beq_iff_eq, beq_iff_eq] at hs
  obtain ⟨hop, hbyte⟩ := hs
  obtain ⟨hwf, he⟩ := hg (fieldX w)
  exact ⟨hwf, by rw [he, formatX_eq, ← hop, ← hbyte, formatXB_fields]⟩

theorem rowsOp_encodeBack : ∀ r ∈ rowsOp, r.EncodesBack := by
  simp only [rowsOp, List.forall_mem_cons]
  refine ⟨?cls, ?ret, ?jp, ?call, ?seImm, ?sneImm, ?seReg, ?ldImm, ?addImm, nofun⟩
  case cls | ret => exact encodesBack_of_word ⟨rfl, rfl⟩
  case jp | call => exact encodesBack_of_formatA rfl fun _ => ⟨rfl, rfl⟩
  case seReg => exact encodesBack_of_formatXY rfl fun _ _ => ⟨rfl, rfl⟩
  all_goals exact encodesBack_of_formatXB rfl fun _ _ => ⟨rfl, rfl⟩

theorem rowsAlu_encodeBack : ∀ r ∈ rowsAlu, r.EncodesBack := by
  simp only [rowsAlu, List.forall_mem_cons]
  refine ⟨?ldReg, ?or, ?and, ?xor, ?addReg, ?sub, ?shr, ?subn, ?shl, nofun⟩
  all_goals exact encodesBack_of_formatXY rfl fun _ _ => ⟨rfl, rfl⟩

theorem rowsHigh_encodeBack : ∀ r ∈ rowsHigh, r.EncodesBack := by
  simp only [rowsHigh, List.forall_mem_cons]
  refine ⟨?sneReg, ?ldI, ?jpV0, ?rnd, ?drw, nofun⟩
  case sneReg => exact encodesBack_of_formatXY rfl fun _ _ => ⟨rfl, rfl⟩
  case ldI | jpV0 => exact encodesBack_of_formatA rfl fun _ => ⟨rfl, rfl⟩
  case rnd => exact encodesBack_of_formatXB rfl fun _ _ => ⟨rfl, rfl⟩
  case drw => exact encodesBack_of_formatXYN rfl fun _ _ _ => ⟨rfl, rfl⟩

theorem rowsByte_encodeBack : ∀ r ∈ rowsByte, r.EncodesBack := by
  simp only [rowsByte, List.forall_mem_cons]
  refine ⟨?skp, ?sknp, ?ldVxDt, ?ldVxK, ?ldDtVx, ?ldStVx, ?addI, ?ldF, ?ldB, ?ldMemVx, ?ldVxMem, nofun⟩
  all_goals exact encodesBack_of_formatX rfl fun _ => ⟨rfl, rfl⟩

/-- Every row of the opcode map keeps every bit of its words. -/
theorem opcodeMap_encodeBack : ∀ r ∈ opcodeMap, r.EncodesBack :=
  List.forall_mem_append.mpr ⟨rowsOp_encodeBack, List.forall_mem_append.mpr ⟨rowsAlu_encodeBack,
    List.forall_mem_append.mpr ⟨rowsHigh_encodeBack, rowsByte_encodeBack⟩⟩⟩

/-- Settles O2, by the row the word selects, or as an unassigned word. -/
theorem decodedWordsEncodeBack : Obligations.DecodedWordsEncodeBack := by
  intro w
  rcases decode_cases w with ⟨r, hr, hs, hd⟩ | ⟨hnone, hd⟩ <;> rw [hd]
  · exact opcodeMap_encodeBack r hr w hs
  · exact ⟨unassigned_iff_selects_none.mpr hnone, rfl⟩

/-- Settles O3: the match values of two rows differ on a bit both masks fix. -/
theorem opcodeRowsAreDisjoint : Obligations.OpcodeRowsAreDisjoint := by
  refine fun w => ⟨fun j k hj hk => ?_, fun r hr => decode_of_selects hr⟩
  have apart := List.pairwise_iff_get.mp opcodeMap_conflicts
  rcases lt_trichotomy j k with h | h | h
  · exact (Row.not_both_of_conflicts (apart j k h) hj hk).elim
  · exact h
  · exact (Row.not_both_of_conflicts (apart k j h) hk hj).elim

/-- Settles O4: by O2 a word that decodes to NOP is unassigned, and by O1 an unassigned word decodes to NOP. -/
theorem unassignedWordsDecodeToNop : Obligations.UnassignedWordsDecodeToNop := by
  intro w
  rw [← unassigned_iff_listed]
  constructor
  · intro hnop
    obtain ⟨hwf, -⟩ := decodedWordsEncodeBack w
    rwa [hnop] at hwf
  · exact encodedInstructionsDecodeBack (.nop w)

/-- Settles O5: each word is the one its instruction encodes to, and so decodes to it by O1. -/
theorem sampleWordsDecode : Obligations.SampleWordsDecode :=
  have h := encodedInstructionsDecodeBack
  ⟨h .cls rfl, h (.jp 0x234) rfl, h (.seReg 1 2) rfl, h (.ldImm 0 0x0A) rfl, h (.sub 15 1) rfl, h (.sneReg 10 11) rfl,
    h (.drw 1 2 5) rfl, h (.skp 2) rfl, h (.ldVxMem 1) rfl, h (.nop 0x5121) rfl⟩

end Sys2Proof
end

section
/-! PROOF. The assembler gives back the word of every listing (R73). -/

namespace Sys2Proof.Machine

/-- A field's value fits the field. -/
theorem fitted_toNat {n : Nat} (b : BitVec n) : fitted n b.toNat = some b := by
  rw [fitted, if_pos b.isLt, BitVec.ofNat_toNat, BitVec.setWidth_eq]

/-- Settles O6, constructor by constructor: the assembler finds the form of the listing, and a number in it fits its
field. -/
theorem listingsAssemble : Obligations.ListingsAssemble := by
  intro i
  cases i
  case jp nnn | call nnn | ldI nnn | jpV0 nnn => exact congrArg (Option.map _) (fitted_toNat nnn)
  case seImm nn | sneImm nn | ldImm nn | addImm nn | rnd nn => exact congrArg (Option.map _) (fitted_toNat nn)
  case drw n => exact congrArg (Option.map _) (fitted_toNat (nibble n))
  case nop w => exact fitted_toNat w
  all_goals rfl

end Sys2Proof.Machine
end

section
/-! PROOF. What a step of the engine and of the block answers: an instruction completes or faults, a tick goes on after its
step, and a held, halted or paused block stays as it is (R71, R74–R76, R122, R136, R145). -/

namespace Sys2Proof.Machine

variable {s : State}

/-! ## An instruction's outcomes -/

/-- A completed instruction leaves the mode as it was, but Fx0A, which waits for a key for its register (R116). -/
theorem retired_mode (i : Instr) (s : State) :
    (s.retired (effectOf i)).mode = s.mode ∨ ∃ x, i = .ldVxK x ∧ (s.retired (effectOf i)).mode = .awaitingKey x := by
  by_cases h : (effectOf i s.advance).mode = s.advance.mode
  · exact .inl h
  · obtain ⟨x, rfl⟩ := writers_mode h
    exact .inr ⟨x, rfl, rfl⟩

/-- Settles O12: the check raises a fault, which is never FETCH_RANGE, or the step completes. -/
theorem stepCompletesOrFaults : Obligations.StepCompletesOrFaults := by
  intro i s hf
  rcases exec_cases i s with ⟨r, hr, e⟩ | ⟨-, e⟩
  · exact .inr ⟨r.code, r.info, checkOf_code hr, e⟩
  · obtain ⟨-, fault, executed, -⟩ := effectOf_keeps i s.advance
    exact .inl ⟨_, e, fault.trans hf, congrArg (· ++ [s.pc]) executed, retired_mode i s⟩

/-- An instruction answers a next state, a fault too. -/
theorem exec_next (i : Instr) (s : State) : ∃ t, exec i s = .next t := by
  rcases exec_cases i s with ⟨r, -, e⟩ | ⟨-, e⟩ <;> exact ⟨_, e⟩

/-- A move of the tick in progress answers a next state. -/
theorem tickMove_next (s : State) : ∃ t, tickMove s = .next t := by
  unfold tickMove
  cases s.phase with
  | between => exact ⟨_, rfl⟩
  | stepping done =>
    obtain ⟨t, e⟩ := engineStep_next s
    exact ⟨_, by rw [e]⟩
  | finishing => exact ⟨_, rfl⟩

/-- Settles O11: a step of the block is a move of the tick in progress, or of the one it begins. -/
theorem everyStepAnswersNext : Obligations.EveryStepAnswersNext := by
  refine ⟨exec_next, fun s => ?_⟩
  unfold step schedulerStep
  split
  · exact tickMove_next s.beginTick
  · exact tickMove_next s

/-! ## The block's steps -/

/-- Settles O8: the step runs the decoded instruction, and the Scheduler's next phase is R136's loop condition. -/
theorem stepInsideATickRunsTheDecodedInstruction : Obligations.StepInsideATickRunsTheDecodedInstruction := by
  intro s i k hf hm hphase hpc hi
  obtain ⟨t, ht⟩ := exec_next i s
  have hstep : engineStep s = .next t := by rw [engineStep_of_fetch hf hm hpc, hi, ht]
  exact ⟨t, ht, by rw [step_of_stepping hphase hstep, afterStep_eq]⟩

/-- A step is not enabled when a fault stands or the engine is held (R74). -/
theorem stepEnabled_eq_false (h : s.fault ≠ none ∨ s.mode ≠ .running) : s.stepEnabled = false := by
  rw [← Bool.not_eq_true, stepEnabled_iff, not_and_or]
  exact h

/-- An engine whose step is not enabled does not move, by itself or in a single step (R74, R139). -/
theorem engineStep_of_not_enabled (h : s.stepEnabled = false) : engineStep s = .next s := by
  rw [engineStep, h]; rfl

theorem stepOnce_of_not_enabled (h : s.stepEnabled = false) : stepOnce s = .next s := by
  rw [stepOnce, stepOnceWith, h]; rfl

/-- Between ticks a faulted block does not move, whether the host plays or not (R124). -/
theorem step_of_fault (h : s.phase = .between) (hf : s.fault ≠ none) : step s = .next s := by
  cases hp : s.playing with
  | false => exact step_of_paused h hp
  | true => rw [step_of_playing h hp, beginTick_of_fault hf, tickMove, h]

/-- Settles O10: the engine's step and the single step are not enabled, and the block's step begins no tick. -/
theorem heldOrHaltedEngineDoesNothing : Obligations.HeldOrHaltedEngineDoesNothing := by
  constructor
  · intro s h
    have hdis := stepEnabled_eq_false h
    exact ⟨engineStep_of_not_enabled hdis,
      fun hphase => (betweenTicks_of_between hphase _).trans (stepOnce_of_not_enabled hdis)⟩
  · rintro s hphase (hpaused | hfault)
    · exact step_of_paused hphase hpaused
    · exact step_of_fault hphase hfault

end Sys2Proof.Machine
end

section
/-! PROOF. Control flow: the jumps, the skips, the call and the return write pc, and the last two the stack, and nothing else
but the report; a fault of the stack writes the latch alone (R79–R88). -/

namespace Sys2Proof.Machine

variable {i : Instr} {s : State} {target : Word} {as : List Word}

/-! ## An instruction that writes pc and the stack at most -/

/-- An instruction whose check raises something takes that fault, and nothing else changes. -/
theorem exec_of_checkOf_some {r : Raised} (hc : checkOf i s = some r) : exec i s = .next (s.faultedBy i r.code r.info) := by
  rw [exec_eq_attempt, hc, attempt_some]; rfl

/-- An instruction whose check passes and whose effect writes pc and the stack completes with these and its report. -/
theorem exec_of_effectOf_pc_stack (hc : checkOf i s = none)
    (he : effectOf i s.advance = { s with pc := target, stack := as }) :
    exec i s = .next { s with pc := target, stack := as, executed := s.executed ++ [s.pc] } := by
  rw [exec_eq_attempt, hc, attempt_none, State.retired, he]; rfl

/-- A new pc and the report leave every register and every byte of memory as they were. -/
theorem writesPc_pc_executed (target : Word) (s : State) :
    WritesPc target s { s with pc := target, executed := s.executed ++ [s.pc] } :=
  ⟨rfl, fun _ _ => rfl, fun _ => rfl⟩

/-- An instruction whose check passes and whose effect writes pc alone completes in the frame of a transfer. -/
theorem exec_writesPc (hc : checkOf i s = none) (he : effectOf i s.advance = { s with pc := target }) :
    ∃ t, exec i s = .next t ∧ WritesPc target s t :=
  ⟨_, exec_of_effectOf_pc_stack hc he, writesPc_pc_executed target s⟩

/-! ## The no-op, the jumps and the skips (R79, R81, R83–R88) -/

/-- Settles O14: NOP's effect leaves the state as the fetch advanced it. -/
theorem nopOnlyAdvances : Obligations.NopOnlyAdvances :=
  ⟨fun _ => decode_of_selects_none, fun _ _ => exec_writesPc rfl rfl⟩

/-- A word holds the exact value of an address (R65). -/
theorem toNat_addrWord (nnn : Addr) : (addrWord nnn).toNat = nnn.toNat :=
  BitVec.toNat_setWidth_of_le (by decide)

/-- An address and a byte add up to at most 0xFFF + 0xFF, which a word holds (R88). -/
theorem toNat_addrWord_add (nnn : Addr) (b : Byte) :
    (addrWord nnn + b.setWidth 16).toNat = nnn.toNat + b.toNat := by
  rw [addrWord]; bv_omega

/-- Settles O15: each effect is a jump, to a word that holds the exact target. -/
theorem jumpsGoToTheirTarget : Obligations.JumpsGoToTheirTarget := by
  intro nnn s
  obtain ⟨t, ht, hpc⟩ : ∃ t, exec (.jp nnn) s = .next t ∧ WritesPc (addrWord nnn) s t := exec_writesPc rfl rfl
  obtain ⟨u, hu, hpc'⟩ :
      ∃ u, exec (.jpV0 nnn) s = .next u ∧ WritesPc (addrWord nnn + (s.getV 0).setWidth 16) s u := exec_writesPc rfl rfl
  exact ⟨encodedInstructionsDecodeBack (.jp nnn) rfl, encodedInstructionsDecodeBack (.jpV0 nnn) rfl,
    ⟨t, _, ht, hpc, toNat_addrWord nnn⟩, ⟨u, _, hu, hpc', toNat_addrWord_add nnn (s.getV 0)⟩⟩

/-- A skip from the advanced pc: pc0 + 4 under the condition, pc0 + 2 otherwise (R83). -/
theorem skipIf_advance {c : Bool} {p : Prop} [Decidable p] (hp : c = true ↔ p) :
    s.advance.skipIf c = { s with pc := if p then s.pc + 4 else s.pc + 2 } := by
  have four : s.pc + 2 + 2 = s.pc + 4 := BitVec.add_assoc s.pc 2 2
  rw [skipIf_eq, advance_pc, four]
  simp only [hp]
  rfl

/-- An instruction whose check passes and whose effect is a skip goes where the condition says. -/
theorem exec_skipIf {c : Bool} {p : Prop} [Decidable p] (hp : c = true ↔ p) (hc : checkOf i s = none)
    (he : effectOf i s.advance = s.advance.skipIf c) :
    ∃ t, exec i s = .next t ∧ WritesPc (if p then s.pc + 4 else s.pc + 2) s t :=
  exec_writesPc hc (he.trans (skipIf_advance hp))

/-- Settles O19: each effect is a skip on a Boolean test of the registers the condition names. -/
theorem skipsTestTheirCondition : Obligations.SkipsTestTheirCondition := by
  intro x y nn s
  have decoded := encodedInstructionsDecodeBack
  exact ⟨decoded (.seImm x nn) rfl, decoded (.sneImm x nn) rfl, decoded (.seReg x y) rfl, decoded (.sneReg x y) rfl,
    exec_skipIf beq_iff_eq rfl rfl, exec_skipIf bne_iff_ne rfl rfl,
    exec_skipIf beq_iff_eq rfl rfl, exec_skipIf bne_iff_ne rfl rfl⟩

/-! ## The call and the return (R80, R82) -/

/-- A call may push exactly when the stack does not hold a finite STACK_LIMIT of addresses (R82). -/
theorem callCheck_eq_none : callCheck s = none ↔ s.params.stackLimit ≠ some s.stack.length := by
  simp [Option.eq_none_iff_forall_ne_some, callCheck_eq_some]

/-- A call on a stack with room pushes the advanced pc and jumps. -/
theorem exec_call (nnn : Addr) (hroom : s.params.stackLimit ≠ some s.stack.length) :
    exec (.call nnn) s = .next { s with
      pc := addrWord nnn, stack := s.stack ++ [s.pc + 2], executed := s.executed ++ [s.pc] } :=
  exec_of_effectOf_pc_stack (callCheck_eq_none.mpr hroom) rfl

/-- A return passes its check where an address is pushed (R80). -/
theorem retCheck_of_stack {a : Word} (h : s.stack = as ++ [a]) : retCheck s = none := by
  simp [retCheck, h]

/-- A return takes the most recently pushed address off the stack. -/
theorem exec_ret {a : Word} (h : s.stack = as ++ [a]) :
    exec .ret s = .next { s with pc := a, stack := as, executed := s.executed ++ [s.pc] } :=
  exec_of_effectOf_pc_stack (retCheck_of_stack h) (popPc_of_stack (s := s.advance) h)

/-- Settles O16: the check of the stack's limit passes or raises STACK_OVERFLOW. -/
theorem callPushesTheReturnAddress : Obligations.CallPushesTheReturnAddress := by
  intro nnn s
  refine ⟨encodedInstructionsDecodeBack (.call nnn) rfl, fun hroom => ?_, fun hfull => ?_⟩
  · exact ⟨_, addrWord nnn, exec_call nnn hroom, toNat_addrWord nnn, rfl, fun _ _ => rfl, fun _ => rfl⟩
  · exact ⟨none, exec_of_checkOf_some (i := .call nnn) (callCheck_eq_some.mpr ⟨hfull, rfl⟩)⟩

/-- Settles O17: the check of the stack passes on a pushed address and raises STACK_UNDERFLOW on an empty stack. -/
theorem returnPopsTheReturnAddress : Obligations.ReturnPopsTheReturnAddress := by
  intro s
  refine ⟨encodedInstructionsDecodeBack .ret rfl, fun as a hstack => ?_, fun hempty => ?_⟩
  · exact ⟨_, exec_ret hstack, rfl, fun _ _ => rfl, fun _ => rfl⟩
  · exact ⟨none, exec_of_checkOf_some (i := .ret) (retCheck_eq_some.mpr ⟨hempty, rfl⟩)⟩

/-- Settles O18: the call leaves pc0 + 2 on top of the old stack, which the return takes off again. -/
theorem returnUndoesCall : Obligations.ReturnUndoesCall := by
  intro nnn s t hroom ht
  cases (exec_call nnn hroom).symm.trans ht
  exact ⟨_, exec_ret rfl, writesPc_pc_executed (s.pc + 2) s⟩

end Sys2Proof.Machine
end

section
/-! PROOF. Register loads and the ALU: each instruction writes its destination, some write VF as a flag first, and nothing else
changes but pc and the report (R89–R101). -/

namespace Sys2Proof.Machine

variable {i : Instr} {s : State} {x m n : Reg} {b : Byte} {c : Bool}

/-! ## The values (R19, R96–R100) -/

/-- A tested condition as a number (R19). -/
theorem toNat_bit_decide (p : Prop) [Decidable p] : (bit (decide p)).toNat = if p then 1 else 0 := by
  by_cases h : p <;> simp [h, bit]

/-- The carry of a sum of two bytes (R96). -/
theorem toNat_bit_carry (a b : Byte) : (bit (carry a b)).toNat = if a.toNat + b.toNat > 255 then 1 else 0 :=
  toNat_bit_decide _

/-- NOT borrow is 0 exactly when the subtraction borrows (R97, R99). -/
theorem toNat_bit_notBorrow (a b : Byte) : (bit (notBorrow a b)).toNat = if a.toNat < b.toNat then 0 else 1 := by
  rw [notBorrow, ← decide_not, toNat_bit_decide, ite_not]

/-- The difference wraps modulo 256 (R97, R99). -/
theorem toNat_difference (a b : Byte) : (difference a b).toNat = (a.toNat + 256 - b.toNat) % 256 := by
  rw [difference, BitVec.toNat_ofInt]
  omega

/-- The bit a right shift moves out is the byte's parity (R98). -/
theorem toNat_bit_shiftedOutRight (a : Byte) : (bit (shiftedOutRight a)).toNat = a.toNat % 2 := by
  rw [shiftedOutRight, BitVec.getLsbD, Nat.testBit_zero, toNat_bit_decide]
  split <;> omega

/-- The bit a left shift moves out is set in the upper half of the bytes (R100). -/
theorem toNat_bit_shiftedOutLeft (a : Byte) : (bit (shiftedOutLeft a)).toNat = a.toNat / 128 := by
  rw [shiftedOutLeft, BitVec.getLsbD, Nat.testBit_eq_decide_div_mod_eq, toNat_bit_decide]
  split <;> omega

/-- What a register holds after a flag write, as a number. -/
theorem toNat_getV_setFlag (c : Bool) :
    ((s.setFlag c).getV x).toNat = if x = VF then (bit c).toNat else (s.getV x).toNat := by
  rw [getV_setFlag, apply_ite BitVec.toNat]

/-! ## An instruction that writes registers only -/

/-- An instruction whose check passes completes with its effect. -/
theorem exec_of_checkOf_none (hc : checkOf i s = none) : exec i s = .next (s.retired (effectOf i)) := by
  rw [exec_eq_attempt, hc, attempt_none]

/-- A write to x on the advanced state completes in the frame of one register. -/
theorem writesRegs_setV (s : State) (x : Reg) (b : Byte) : WritesRegs [x] s ((s.advance.setV x b).report s.pc) :=
  ⟨rfl, fun _ hr => getV_setV_other (List.ne_of_not_mem_cons hr), fun _ => rfl⟩

/-- A flag write and then a write to x complete in the frame of the two registers. -/
theorem writesRegs_setFlag_setV (s : State) (c : Bool) (x : Reg) (b : Byte) :
    WritesRegs [x, VF] s (((s.advance.setFlag c).setV x b).report s.pc) :=
  ⟨rfl, fun _ hr => not_imp_comm.mp eq_or_eq_of_getV_setFlag_setV_ne (by simpa using hr), fun _ => rfl⟩

/-- An instruction that writes b to V[x] alone. -/
theorem exec_setV (hc : checkOf i s = none) (he : effectOf i s.advance = s.advance.setV x b) :
    ∃ t, exec i s = .next t ∧ WritesRegs [x] s t ∧ t.getV x = b := by
  refine ⟨_, exec_of_checkOf_none hc, ?_⟩
  rw [State.retired, he]
  exact ⟨writesRegs_setV s x b, getV_setV_same⟩

/-- An instruction that writes VF as a flag and then b to V[x], which overwrites the flag where x is VF (R26). -/
theorem exec_setFlag_setV (hc : checkOf i s = none) (he : effectOf i s.advance = (s.advance.setFlag c).setV x b) :
    ∃ t, exec i s = .next t ∧ WritesRegs [x, VF] s t ∧ t.getV x = b ∧ (x ≠ VF → t.getV VF = bit c) := by
  refine ⟨_, exec_of_checkOf_none hc, ?_⟩
  rw [State.retired, he]
  exact ⟨writesRegs_setFlag_setV s c x b, getV_setV_same, fun hx => (getV_setV_other hx.symm).trans getV_setV_same⟩

/-! ## The loads and the logic (R90–R95, R101) -/

/-- Settles O20: each effect is one register write, of a sum taken modulo 256 in ADD's case. -/
theorem loadsWriteTheirRegister : Obligations.LoadsWriteTheirRegister := by
  intro x y nn s
  have decoded := encodedInstructionsDecodeBack
  obtain ⟨t, ht, frame, sum⟩ := exec_setV (i := .addImm x nn) (s := s) rfl rfl
  exact ⟨decoded (.ldImm x nn) rfl, decoded (.addImm x nn) rfl, decoded (.ldReg x y) rfl, exec_setV rfl rfl,
    ⟨t, ht, frame, by rw [sum]; exact BitVec.toNat_ofNat ..⟩, exec_setV rfl rfl⟩

/-- Settles O21: each effect is one register write, of a word operation that acts bit by bit. -/
theorem logicWritesItsRegister : Obligations.LogicWritesItsRegister := by
  intro x y s
  have decoded := encodedInstructionsDecodeBack
  obtain ⟨t, ht, tframe, tbits⟩ := exec_setV (i := .or x y) (s := s) rfl rfl
  obtain ⟨u, hu, uframe, ubits⟩ := exec_setV (i := .and x y) (s := s) rfl rfl
  obtain ⟨v, hv, vframe, vbits⟩ := exec_setV (i := .xor x y) (s := s) rfl rfl
  exact ⟨decoded (.or x y) rfl, decoded (.and x y) rfl, decoded (.xor x y) rfl,
    ⟨t, ht, tframe, fun k => by rw [tbits, BitVec.getLsbD_or]; rfl⟩,
    ⟨u, hu, uframe, fun k => by rw [ubits, BitVec.getLsbD_and]; rfl⟩,
    ⟨v, hv, vframe, fun k => by rw [vbits, BitVec.getLsbD_xor]; rfl⟩⟩

/-- Settles O26: the effect is one register write and one draw, and the mask is disjoint from its complement. -/
theorem randomByteIsMasked : Obligations.RandomByteIsMasked := by
  intro x nn s
  have draw : (s.retired (effectOf (.rnd x nn))).getV x = s.randByte &&& nn := getV_setV_same
  refine ⟨encodedInstructionsDecodeBack (.rnd x nn) rfl, _, exec_of_checkOf_none rfl, writesRegs_setV s x _, rfl, draw, ?_⟩
  rw [draw, BitVec.and_assoc, BitVec.and_not_self]
  exact BitVec.and_zero

/-! ## The sum, the differences and the shifts (R96–R100) -/

/-- Settles O22: the flag and the sum are both taken of the old values. -/
theorem addSetsCarryAndSum : Obligations.AddSetsCarryAndSum := by
  intro x y s
  obtain ⟨t, ht, frame, sum, flag⟩ := exec_setFlag_setV (i := .addReg x y) (s := s) rfl rfl
  refine ⟨encodedInstructionsDecodeBack (.addReg x y) rfl, t, ht, frame, ?_, fun hx => ?_⟩
  · rw [sum]; exact BitVec.toNat_ofNat ..
  · rw [flag hx]; exact toNat_bit_carry ..

/-- An instruction that writes NOT borrow of V[m] − V[n] to VF, and then the difference of what V[m] and V[n] hold after that
write to V[x]: the common form of SUB and SUBN. -/
theorem exec_notBorrow_difference {u : State} {k : Nat} (hu : u = s.advance.setFlag (notBorrow (s.getV m) (s.getV n)))
    (hc : checkOf i s = none) (he : effectOf i s.advance = u.setV x (difference (u.getV m) (u.getV n)))
    (hk : k = if (s.getV m).toNat < (s.getV n).toNat then 0 else 1) :
    ∃ t, exec i s = .next t ∧ WritesRegs [x, VF] s t ∧
      (t.getV x).toNat =
        ((if m = VF then k else (s.getV m).toNat) + 256 - (if n = VF then k else (s.getV n).toNat)) % 256 ∧
      (x ≠ VF → (t.getV VF).toNat = k) := by
  subst hu
  rw [← toNat_bit_notBorrow] at hk
  obtain ⟨t, ht, frame, diff, flag⟩ := exec_setFlag_setV hc he
  refine ⟨t, ht, frame, ?_, fun hx => by rw [flag hx, hk]⟩
  rw [diff, toNat_difference, toNat_getV_setFlag, toNat_getV_setFlag, hk, getV_advance, getV_advance]

/-- Settles O23: V[y] is subtracted from V[x]. -/
theorem subSetsNotBorrowAndDifference : Obligations.SubSetsNotBorrowAndDifference := fun x y _ =>
  ⟨encodedInstructionsDecodeBack (.sub x y) rfl, fun _ => exec_notBorrow_difference rfl rfl rfl⟩

/-- Settles O24: V[x] is subtracted from V[y]. -/
theorem subnSetsNotBorrowAndDifference : Obligations.SubnSetsNotBorrowAndDifference := fun x y _ =>
  ⟨encodedInstructionsDecodeBack (.subn x y) rfl, fun _ => exec_notBorrow_difference rfl rfl rfl⟩

/-- Settles O25: each flag is taken of the old V[x], and V[x] is shifted as the flag write left it; neither effect reads V[y]. -/
theorem shiftsMoveOneBit : Obligations.ShiftsMoveOneBit := by
  intro x y s
  refine ⟨encodedInstructionsDecodeBack (.shr x y) rfl, encodedInstructionsDecodeBack (.shl x y) rfl, ?_, ?_⟩
  · obtain ⟨t, ht, frame, half, flag⟩ := exec_setFlag_setV (i := .shr x y) (s := s) rfl rfl
    refine ⟨t, ht, frame, ?_, fun hx => by rw [flag hx]; exact toNat_bit_shiftedOutRight _⟩
    rw [half, BitVec.toNat_ushiftRight, Nat.shiftRight_eq_div_pow, pow_one, toNat_getV_setFlag, toNat_bit_shiftedOutRight,
      getV_advance]
  · obtain ⟨t, ht, frame, double, flag⟩ := exec_setFlag_setV (i := .shl x y) (s := s) rfl rfl
    refine ⟨t, ht, frame, ?_, fun hx => by rw [flag hx]; exact toNat_bit_shiftedOutLeft _⟩
    rw [double, BitVec.toNat_shiftLeft, Nat.shiftLeft_eq, pow_one, toNat_getV_setFlag, toNat_bit_shiftedOutLeft, getV_advance]

end Sys2Proof.Machine
end

section
/-! PROOF. The index register and the memory transfers: three instructions write I alone, two store bytes from I on, one loads
registers from I on, and each takes its check's fault where the sum or an address is out of range (R102–R107). -/

namespace Sys2Proof.Machine

variable {i : Instr} {s t : State} {x : Reg} {w : Word} {n : Nat}

/-! ## An instruction that writes I only (R102–R104) -/

/-- An instruction whose check passes and whose effect sets I to a word of value n. -/
theorem exec_setI (hc : checkOf i s = none) (he : effectOf i s.advance = s.advance.setI w) (hw : w.toNat = n) :
    ∃ t, exec i s = .next t ∧ WritesIndex s t ∧ t.i.toNat = n := by
  refine ⟨_, exec_of_checkOf_none hc, ?_⟩
  rw [State.retired, he]
  exact ⟨⟨rfl, fun _ _ => rfl, fun _ => rfl⟩, hw⟩

/-- A word holds the exact glyph base, which is at most 1275 (R104). -/
theorem toNat_glyphBase (b : Byte) : (glyphBase b).toNat = b.toNat * 5 := by
  rw [glyphBase, BitVec.toNat_ofNat]
  omega

/-- Settles O27: each effect sets I, to a word that holds the exact value. -/
theorem indexLoads : Obligations.IndexLoads := by
  intro nnn x s
  exact ⟨encodedInstructionsDecodeBack (.ldI nnn) rfl, encodedInstructionsDecodeBack (.ldF x) rfl,
    exec_setI rfl rfl (toNat_addrWord nnn), exec_setI rfl rfl (toNat_glyphBase (s.getV x))⟩

/-- Settles O28: the check of the exact sum passes or raises INDEX_OVERFLOW, and a sum that passes is a word's value. -/
theorem indexAddOverflowsToAFault : Obligations.IndexAddOverflowsToAFault := by
  intro x s
  refine ⟨encodedInstructionsDecodeBack (.addI x) rfl, fun hfits => ?_, fun hover => ?_⟩
  · exact exec_setI (i := .addI x) (if_neg (Nat.not_lt.mpr hfits)) rfl (Nat.mod_eq_of_lt (Nat.lt_succ_of_le hfits))
  · exact exec_of_checkOf_some (i := .addI x) (addICheck_eq_some.mpr ⟨hover, rfl⟩)

/-! ## The faults of an access to n bytes from I on (R57, R123) -/

/-- An access that ends above memory takes MEM_RANGE at its lowest address there. -/
theorem exec_memRange {isWrite : Bool} (hc : checkOf i s = checkAccess s.i.toNat n isWrite) (hn : 0 < n)
    (h : 0x1000 < s.i.toNat + n) : exec i s = .next (s.faultedBy i .memRange (some (max s.i.toNat 0x1000))) :=
  exec_of_checkOf_some (hc.trans (checkAccess_memRange h hn))

/-- A store of at most 16 bytes that begins in the font region takes FONT_WRITE at its first address. -/
theorem exec_fontWrite (hc : checkOf i s = checkAccess s.i.toNat n true) (hn : 0 < n) (hn' : n ≤ 16)
    (h : s.i.toNat ≤ 0x4F) : exec i s = .next (s.faultedBy i .fontWrite (some s.i.toNat)) := by
  have inMemory : s.i.toNat + n ≤ 0x1000 := by omega
  exact exec_of_checkOf_some (hc.trans (checkAccess_fontWrite inMemory hn (Nat.lt_succ_of_le h)))

/-! ## The stores (R105, R106) -/

/-- A byte made of a number below 256 has its value. -/
theorem toNat_of_eq_ofNat {b : Byte} (hb : b = BitVec.ofNat 8 n) (hn : n < 256) : b.toNat = n := by
  rw [hb, BitVec.toNat_ofNat, Nat.mod_eq_of_lt hn]

/-- Settles O29: the check passes and the digits are stored, or it raises the fault. -/
theorem decimalDigitsAreStored : Obligations.DecimalDigitsAreStored := by
  intro x s hw
  refine ⟨encodedInstructionsDecodeBack (.ldB x) rfl, fun hlo hhi => ?_, fun h => ?_, fun h => ?_⟩
  · have hbyte : (s.getV x).toNat < 256 := (s.getV x).isLt
    have hlen : (decimalDigits (s.getV x)).length = 3 := rfl
    obtain ⟨frame, bytes⟩ := writesBytes_retired (bs := decimalDigits (s.getV x)) hw (Nat.succ_le_succ hhi)
    refine ⟨_, exec_ldB_eq_afterStore hlo (Nat.succ_le_succ hhi), frame, ?_, ?_, ?_⟩
    · exact toNat_of_eq_ofNat (bytes 0 (by omega)) (by omega)
    · exact toNat_of_eq_ofNat (bytes 1 (by omega)) (by omega)
    · exact toNat_of_eq_ofNat (bytes 2 (by omega)) (by omega)
  · exact exec_memRange (n := 3) rfl (by decide) (Nat.succ_lt_succ h)
  · exact exec_fontWrite (n := 3) rfl (by decide) (by decide) h

theorem length_regBytes (s : State) (x : Reg) : (s.regBytes x).length = x + 1 := by
  rw [State.regBytes, List.length_map, length_regsUpTo]

/-- Settles O30: the check passes and the registers are stored, or it raises the fault. -/
theorem registersAreStored : Obligations.RegistersAreStored := by
  intro x s hw
  refine ⟨encodedInstructionsDecodeBack (.ldMemVx x) rfl, fun hlo hhi => ?_, fun h => ?_, fun h => ?_⟩
  · have hlen := length_regBytes s x
    obtain ⟨frame, bytes⟩ := writesBytes_retired (bs := s.regBytes x) hw (by omega)
    rw [hlen] at frame
    exact ⟨_, exec_ldMemVx_eq_afterStore hlo (Nat.succ_le_succ hhi), frame,
      fun k hk => (bytes k (hlen ▸ Nat.lt_succ_of_le hk)).trans (getElem_regBytes hk _)⟩
  · exact exec_memRange (n := x + 1) rfl x.val.succ_pos (Nat.succ_lt_succ h)
  · exact exec_fontWrite (n := x + 1) rfl x.val.succ_pos x.isLt h

/-! ## The load, and the round trip (R107) -/

/-- A completed load from I on writes V[0] … V[x] and no other register. -/
theorem writesRegs_loadRegs (s : State) (x : Reg) :
    WritesRegs (regsUpTo x) s ((s.advance.loadRegs s.i.toNat (regsUpTo x)).report s.pc) := by
  refine ⟨?_, fun r hr => ?_, fun a => ?_⟩
  · rw [loadRegs_eq_self_but_v]; rfl
  · rw [getV_report, getV_loadRegs, if_neg hr, getV_advance]
  · rw [readByte_report, readByte_loadRegs, readByte_advance]

/-- Settles O31: the check passes and the registers are loaded, or it raises MEM_RANGE. -/
theorem registersAreLoaded : Obligations.RegistersAreLoaded := by
  intro x s
  refine ⟨encodedInstructionsDecodeBack (.ldVxMem x) rfl, fun hhi => ?_, fun h => ?_⟩
  · have hpass : checkOf (.ldVxMem x) s = none := checkAccess_none.mpr (.inr ⟨Nat.succ_le_succ hhi, nofun⟩)
    refine ⟨_, exec_of_checkOf_none hpass, writesRegs_loadRegs s x, fun k => ?_⟩
    split
    case isTrue hle => exact (getV_loadRegs ..).trans (if_pos (mem_regsUpTo.mpr hle))
    case isFalse hgt => exact (getV_loadRegs ..).trans (if_neg (mt mem_regsUpTo.mp hgt))
  · exact exec_memRange (n := x + 1) rfl x.val.succ_pos (Nat.succ_lt_succ h)

/-- States whose registers agree one by one have the same register file. -/
theorem v_eq_of_getV (h : ∀ k, t.getV k = s.getV k) : t.v = s.v :=
  Vector.ext fun k hk => h ⟨k, hk⟩

/-- Settles O32: the load reads V[0] … V[x] back from where the store put them, and neither writes another register or I. -/
theorem storeThenLoadRestoresRegisters : Obligations.StoreThenLoadRestoresRegisters := by
  intro x s t z u hw hlo hhi ht hz hregs hu
  obtain ⟨-, store, -, -⟩ := registersAreStored x s hw
  obtain ⟨t', ht', ⟨tframe, tregs, -⟩, stored⟩ := store hlo hhi
  cases ht.symm.trans ht'
  have ti : t.i = s.i := by rw [tframe]
  have zi : z.i = s.i := by rw [hz, ti]
  have zbyte : ∀ a, z.readByte a = t.readByte a := fun a => by rw [hz]; rfl
  obtain ⟨-, load, -⟩ := registersAreLoaded x z
  obtain ⟨u', hu', ⟨uframe, -, -⟩, loaded⟩ := load (by rw [zi]; exact hhi)
  cases hu.symm.trans hu'
  have ui : u.i = s.i := by rw [uframe, zi]
  refine ⟨v_eq_of_getV fun k => ?_, ui⟩
  have hk := loaded k
  split at hk
  case isTrue hle => rw [hk, zbyte, zi, stored k hle]
  case isFalse hgt => rw [hk, hregs, if_neg hgt, tregs k List.not_mem_nil]

end Sys2Proof.Machine
end

section
/-! PROOF. The display: CLS clears the grid, and DRW flips a pixel once for every 1 bit of the sprite that falls on it, so that a
second draw at the same place undoes the first (R108–R112). -/

namespace Sys2Proof.Machine

variable {s t : State} {x y : Reg} {n : Fin 16} {r c : Nat}

/-! ## CLS (R110) -/

/-- Settles O33: the effect empties the list of set pixels. -/
theorem clearScreenClearsEveryPixel : Obligations.ClearScreenClearsEveryPixel := fun _ =>
  ⟨encodedInstructionsDecodeBack .cls rfl, _, exec_of_checkOf_none rfl, rfl, fun _ _ => rfl, fun _ => rfl, fun _ _ => rfl⟩

/-! ## The pixels of the grid (R36) -/

theorem pixel_iff : s.pixel r c = true ↔ r * s.params.fbWidth + c ∈ s.fb := List.contains_iff_mem

/-- An index inside the grid is the index of a pixel of the grid. -/
theorem exists_pixelIndex {W H q : Nat} (hq : q < W * H) : ∃ r c, r < H ∧ c < W ∧ r * W + c = q :=
  have hW : 0 < W := Nat.pos_of_lt_mul_right hq
  ⟨q / W, q % W, Nat.div_lt_of_lt_mul hq, Nat.mod_lt q hW, Nat.div_add_mod' q W⟩

/-- Two states of one grid whose pixels agree have the same framebuffer. -/
theorem fb_eq_of_pixel (hp : t.params = s.params) (hs : Framebuffer.wf s.params.fbWidth s.params.fbHeight s.fb)
    (ht : Framebuffer.wf s.params.fbWidth s.params.fbHeight t.fb)
    (h : ∀ r c, r < s.params.fbHeight → c < s.params.fbWidth → t.pixel r c = s.pixel r c) : t.fb = s.fb := by
  have agree : ∀ q, q < s.params.fbWidth * s.params.fbHeight → (q ∈ t.fb ↔ q ∈ s.fb) := fun q hq => by
    obtain ⟨r, c, hr, hc, rfl⟩ := exists_pixelIndex hq
    rw [← pixel_iff, ← h r c hr hc, pixel_iff, hp]
  exact rising_ext ht.1 hs.1 fun q => ⟨fun hq => (agree q (ht.2 q hq)).mp hq, fun hq => (agree q (hs.2 q hq)).mpr hq⟩

/-! ## The hits of a sprite (R109) -/

/-- A pixel is hit exactly when some 1 bit of the sprite falls on it. -/
theorem spriteHits_pos {n : Nat} : 0 < s.spriteHits x y n r c ↔
    ∃ row < n, ∃ col < 8, (s.readByte (s.dataBase + row)).getLsbD (7 - col) = true ∧
      ((s.getV y).toNat + row) % s.params.fbHeight = r ∧ ((s.getV x).toNat + col) % s.params.fbWidth = c := by
  simp [State.spriteHits, List.countP_pos_iff, and_assoc]

/-- Two offsets below the size of an axis that wrap to one place are the same. -/
theorem eq_of_wrapped_eq {m z a b : Nat} (ha : a < m) (hb : b < m) (h : (z + a) % m = (z + b) % m) : a = b :=
  (Nat.ModEq.add_left_cancel' z h).eq_of_lt_of_lt ha hb

/-- On a grid no smaller than the sprite no pixel is hit twice (R112). -/
theorem spriteHits_le_one {n : Nat} (hW : 8 ≤ s.params.fbWidth) (hH : n ≤ s.params.fbHeight) :
    s.spriteHits x y n r c ≤ 1 := by
  rw [State.spriteHits, List.countP_eq_length_filter]
  have nodup : (List.product (List.range n) (List.range 8)).Nodup := List.nodup_range.product List.nodup_range
  rw [← List.toFinset_card_of_nodup (nodup.filter _), Finset.card_le_one]
  rintro ⟨row, col⟩ h ⟨row', col'⟩ h'
  simp only [List.toFinset_filter, Finset.mem_filter, List.mem_toFinset, List.pair_mem_product, List.mem_range,
    Bool.and_eq_true, decide_eq_true_eq] at h h'
  obtain ⟨⟨hrow, hcol⟩, -, hr, hc⟩ := h
  obtain ⟨⟨hrow', hcol'⟩, -, hr', hc'⟩ := h'
  have rows : row = row' := eq_of_wrapped_eq (by omega) (by omega) (hr.trans hr'.symm)
  have cols : col = col' := eq_of_wrapped_eq (by omega) (by omega) (hc.trans hc'.symm)
  rw [rows, cols]

/-- The hits depend on the grid, I, memory and the coordinates only. -/
theorem spriteHits_congr {n : Nat} (hp : t.params = s.params) (hi : t.i = s.i) (hb : SameBytes s t)
    (hx : t.getV x = s.getV x) (hy : t.getV y = s.getV y) : t.spriteHits x y n r c = s.spriteHits x y n r c := by
  have hb : t.readByte = s.readByte := funext hb
  rw [State.spriteHits, State.spriteHits, State.dataBase, State.dataBase, hp, hi, hb, hx, hy]

/-! ## DRW (R111) -/

/-- The pixels DRW flips, in order: each bit of the n bytes from I on, at V[x] and V[y] (R109). -/
def State.spriteAt (s : State) (x y : Reg) (n : Nat) : List Nat :=
  spritePixels s.params.fbWidth s.params.fbHeight (s.getV x).toNat (s.getV y).toNat 0 (s.readBytes s.dataBase n)

/-- The state a completed DRW leaves (R111). -/
def State.afterDraw (s : State) (x y : Reg) (n : Fin 16) : State := s.retired (effectOf (.drw x y n))

theorem afterDraw_params : (s.afterDraw x y n).params = s.params := rfl

theorem afterDraw_fb : (s.afterDraw x y n).fb = (Framebuffer.blit (s.spriteAt x y n) s.fb false).1 := rfl

theorem getV_afterDraw_VF : (s.afterDraw x y n).getV VF = bit (Framebuffer.blit (s.spriteAt x y n) s.fb false).2 :=
  getV_setV_same

/-- A sprite inside memory is drawn. -/
theorem exec_drw (h : n = 0 ∨ s.i.toNat + n ≤ 0x1000) : exec (.drw x y n) s = .next (s.afterDraw x y n) :=
  exec_of_checkOf_none (checkAccess_none.mpr (h.imp (congrArg Fin.val) fun h => ⟨h, nofun⟩))

theorem afterDraw_fb_wf (hp : s.params.ok) (hw : Framebuffer.wf s.params.fbWidth s.params.fbHeight s.fb) :
    Framebuffer.wf s.params.fbWidth s.params.fbHeight (s.afterDraw x y n).fb :=
  drawSprite_wf (s := s.advance) hp hw

/-- A pixel differs after DRW exactly when an odd number of 1 bits falls on it. -/
theorem afterDraw_pixel (hw : Framebuffer.wf s.params.fbWidth s.params.fbHeight s.fb) (hc : c < s.params.fbWidth) :
    (s.afterDraw x y n).pixel r c = (s.pixel r c ^^ decide (s.spriteHits x y n r c % 2 = 1)) := by
  rw [Bool.eq_iff_iff, pixel_iff, afterDraw_params, afterDraw_fb, mem_blit hw.1, State.spriteAt, count_spritePixels hc,
    ← pixel_iff]
  split
  case isTrue hodd => simp [hodd]
  case isFalse heven => simp [heven]

/-- DRW collides exactly when a set pixel of the grid is hit, or a clear one twice. -/
theorem blit_spriteAt_collides (hp : s.params.ok) (hw : Framebuffer.wf s.params.fbWidth s.params.fbHeight s.fb) :
    (Framebuffer.blit (s.spriteAt x y n) s.fb false).2 = true ↔
      ∃ r c, r < s.params.fbHeight ∧ c < s.params.fbWidth ∧ (if s.pixel r c then 1 else 2) ≤ s.spriteHits x y n r c := by
  rw [blit_collides hw.1]
  constructor
  · rintro (h | ⟨q, hq⟩)
    · cases h
    · have hit : q ∈ s.spriteAt x y n := List.count_pos_iff.mp (by split at hq <;> omega)
      obtain ⟨r, c, hr, hc, rfl⟩ := exists_pixelIndex (spritePixels_lt hp.1 hp.2 q hit)
      refine ⟨r, c, hr, hc, ?_⟩
      rw [State.spriteAt, count_spritePixels hc] at hq
      simpa only [pixel_iff] using hq
  · rintro ⟨r, c, -, hc, h⟩
    refine .inr ⟨r * s.params.fbWidth + c, ?_⟩
    rw [State.spriteAt, count_spritePixels hc]
    simpa only [pixel_iff] using h

/-- VF after DRW is the collision flag. -/
theorem afterDraw_flag (hp : s.params.ok) (hw : Framebuffer.wf s.params.fbWidth s.params.fbHeight s.fb) :
    ((s.afterDraw x y n).getV VF).toNat ≤ 1 ∧
    ((s.afterDraw x y n).getV VF = 1 ↔
      ∃ r c, r < s.params.fbHeight ∧ c < s.params.fbWidth ∧ (if s.pixel r c then 1 else 2) ≤ s.spriteHits x y n r c) := by
  rw [getV_afterDraw_VF, ← blit_spriteAt_collides hp hw]
  cases (Framebuffer.blit (s.spriteAt x y n) s.fb false).2 <;> decide

/-- Settles O34: the check passes and the sprite is drawn, or it raises MEM_RANGE. -/
theorem spriteDrawFlipsItsPixels : Obligations.SpriteDrawFlipsItsPixels := by
  intro x y n s hp hw
  refine ⟨encodedInstructionsDecodeBack (.drw x y n) rfl, fun h => ?_, fun hn h => ?_⟩
  · exact ⟨_, exec_drw h, rfl, fun r hr => getV_setV_other (List.ne_of_not_mem_cons hr), fun _ => rfl,
      fun r c _ hc => afterDraw_pixel hw hc, afterDraw_flag hp hw⟩
  · exact exec_memRange (n := n) rfl (Fin.pos_iff_ne_zero.mpr hn) h

/-! ## A second draw, and the edge of the screen (R112) -/

/-- Settles O35: the second draw flips the same pixels back, and where no pixel is hit twice it clears a set one exactly where
the first set a clear one. -/
theorem drawingTwiceRestoresTheScreen : Obligations.DrawingTwiceRestoresTheScreen := by
  intro x y n s t u hp hw h ht hx hy hu
  cases (exec_drw h).symm.trans ht
  have hw' := afterDraw_fb_wf (x := x) (y := y) (n := n) hp hw
  have hits : ∀ r c, (s.afterDraw x y n).spriteHits x y n r c = s.spriteHits x y n r c := fun _ _ =>
    spriteHits_congr rfl rfl (fun _ => rfl) hx hy
  have pixels : ∀ r c, c < s.params.fbWidth → (s.afterDraw x y n).pixel r c =
      (s.pixel r c ^^ decide (s.spriteHits x y n r c % 2 = 1)) := fun _ _ => afterDraw_pixel hw
  cases (exec_drw (s := s.afterDraw x y n) h).symm.trans hu
  constructor
  · refine fb_eq_of_pixel rfl hw (afterDraw_fb_wf (s := s.afterDraw x y n) hp hw') fun r c _ hc => ?_
    rw [afterDraw_pixel (s := s.afterDraw x y n) hw' hc, hits, pixels r c hc, Bool.xor_assoc, Bool.xor_self,
      Bool.xor_false]
  · intro hW hH
    refine (afterDraw_flag (s := s.afterDraw x y n) hp hw').2.trans
      (exists_congr fun r => exists_congr fun c => and_congr_right fun _ => and_congr_right fun hc => ?_)
    have once : s.spriteHits x y n r c ≤ 1 := spriteHits_le_one hW hH
    rw [hits, pixels r c hc]
    interval_cases s.spriteHits x y n r c <;> cases s.pixel r c <;> decide

/-- A full row at x = 60 on a 64 by 32 screen hits columns 60–63 and 0–3 of row V[y] mod 32, and no others (R112). -/
theorem spriteHits_pos_of_fullRow (hW : s.params.fbWidth = 64) (hH : s.params.fbHeight = 32) (hx : (s.getV x).toNat = 60)
    (hbyte : s.readByte s.i.toNat = 0xFF) (hc : c < 64) :
    0 < s.spriteHits x y (1 : Fin 16) r c ↔ r = (s.getV y).toNat % 32 ∧ (60 ≤ c ∨ c < 4) := by
  rw [spriteHits_pos, hW, hH, hx]
  constructor
  · rintro ⟨row, hrow, col, hcol, -, hr, hc'⟩
    obtain rfl : row = 0 := Nat.lt_one_iff.mp hrow
    exact ⟨hr.symm, by omega⟩
  · rintro ⟨hr, hc'⟩
    have hcol : (c + 4) % 64 < 8 := by omega
    have bits : ∀ col < 8, (0xFF : Byte).getLsbD (7 - col) = true := by decide
    exact ⟨0, Nat.one_pos, _, hcol, (congrFun (congrArg BitVec.getLsbD hbyte) _).trans (bits _ hcol), hr.symm, by omega⟩

/-- Settles O36: the row hits those columns, each once, and no pixel was set. -/
theorem spriteWrapsAroundTheEdge : Obligations.SpriteWrapsAroundTheEdge := by
  intro x y s hW hH hfb hx hi hbyte
  have hp : s.params.ok := by rw [Config.Params.ok, hW, hH]; decide
  have hw : Framebuffer.wf s.params.fbWidth s.params.fbHeight s.fb := by
    rw [hfb]; exact ⟨.nil, nofun⟩
  have clear : ∀ r c, s.pixel r c = false := fun r c => by rw [State.pixel, hfb]; rfl
  have once : ∀ r c, s.spriteHits x y (1 : Fin 16) r c ≤ 1 := fun r c =>
    spriteHits_le_one (hW ▸ by decide) (hH ▸ by decide)
  refine ⟨_, exec_drw (n := 1) (.inr (Nat.succ_le_succ hi)), ?_, fun r c hr hc => ?_⟩
  · obtain ⟨le, one⟩ := afterDraw_flag (x := x) (y := y) (n := 1) hp hw
    have noCollision : (s.afterDraw x y 1).getV VF ≠ 1 := fun h => by
      obtain ⟨r, c, -, -, twice⟩ := one.mp h
      rw [clear] at twice
      exact absurd (once r c) (Nat.not_le.mpr twice)
    bv_omega
  · rw [afterDraw_pixel hw (hW ▸ hc), clear, Bool.false_xor, decide_eq_true_eq,
      ← spriteHits_pos_of_fullRow hW hH hx hbyte hc]
    have := once r c
    exact ⟨by omega, by omega⟩

end Sys2Proof.Machine
end

section
/-! PROOF. Keypad and timers: the key skips read a key's state, the timer loads copy a timer, and the key wait holds the engine
until a press, which is a host event (R113–R118, R131). -/

namespace Sys2Proof.Machine

variable {s : State} {x d : Reg} {k : Fin 16}

/-! ## The key skips (R113, R114) -/

/-- A key that exists is pressed when its state says so (R33). -/
theorem isPressed_eq (s : State) (k : Fin 16) : s.isPressed k = s.keys[k] :=
  dif_pos k.isLt

/-- A register of value at most 0xF holds a key code (R113, R114). -/
theorem keyCheck_of_key (hk : (s.getV x).toNat = k) : keyCheck x s = none :=
  if_neg (by omega)

/-- Settles O37: both effects are skips on the key's state, SKNP's on its negation, behind one check of the key code. -/
theorem keySkipsReadTheKey : Obligations.KeySkipsReadTheKey := by
  intro x s
  refine ⟨encodedInstructionsDecodeBack (.skp x) rfl, encodedInstructionsDecodeBack (.sknp x) rfl, fun k hk => ?_, fun h => ?_⟩
  · have pressed : s.isPressed (s.getV x).toNat = s.keys[k] := by rw [hk, isPressed_eq]
    have unpressed : (!s.isPressed (s.getV x).toNat) = true ↔ ¬s.keys[k] = true := by simp [pressed]
    have noFault := keyCheck_of_key hk
    exact ⟨exec_skipIf (i := .skp x) (pressed ▸ Iff.rfl) noFault rfl,
      by simpa only [ite_not] using exec_skipIf (i := .sknp x) unpressed noFault rfl⟩
  · have raised : keyCheck x s = some ⟨.keyRange, some (s.getV x).toNat⟩ := keyCheck_eq_some.mpr ⟨h, rfl⟩
    exact ⟨exec_of_checkOf_some (i := .skp x) raised, exec_of_checkOf_some (i := .sknp x) raised⟩

/-! ## The timer loads (R115, R117, R118) -/

/-- Settles O38: one effect is a register write, and the other two write their timer alone. -/
theorem timerLoads : Obligations.TimerLoads := by
  intro x s
  have decoded := encodedInstructionsDecodeBack
  exact ⟨decoded (.ldVxDt x) rfl, decoded (.ldDtVx x) rfl, decoded (.ldStVx x) rfl, exec_setV rfl rfl,
    ⟨_, exec_of_checkOf_none rfl, writesPc_pc_executed (s.pc + 2) s, rfl⟩,
    ⟨_, exec_of_checkOf_none rfl, writesPc_pc_executed (s.pc + 2) s, rfl, rfl⟩⟩

/-! ## The key wait and the key events (R116, R131) -/

/-- A key event for a key that exists is never refused (R132). -/
theorem handle_setKey (s : State) (k : Fin 16) (p : Bool) : s.handle (.setKey k p) = .next (s.setKey k p) :=
  dif_pos k.isLt

/-- A release changes the key's state alone, in a held engine too (R131). -/
theorem setKey_release (s : State) (k : Fin 16) : s.setKey k false = { s with keys := s.keys.set k false } := rfl

/-- A press in a held engine also writes the key's code to the awaiting register, and the engine runs on (R131). -/
theorem setKey_press_of_held (k : Fin 16) (h : s.mode = .awaitingKey d) :
    s.setKey k true = { s.setV d (BitVec.ofNat 8 k) with keys := s.keys.set k true, mode := .running } := by
  simp only [State.setKey, h]; rfl

/-- The press in a held engine: its frame, and what it leaves in the key's state and the awaiting register (R131). -/
theorem handle_press_of_held (k : Fin 16) (h : s.mode = .awaitingKey d) :
    ∃ t, s.handle (.setKey k true) = .next t ∧ t = { s with keys := t.keys, v := t.v, mode := .running } ∧
      t.keys = s.keys.set k true ∧ SameRegsBut [d] s t ∧ (t.getV d).toNat = k := by
  refine ⟨_, handle_setKey s k true, ?_⟩
  rw [setKey_press_of_held k h]
  exact ⟨rfl, rfl, fun _ hr => getV_setV_other (List.ne_of_not_mem_cons hr), toNat_of_eq_ofNat getV_setV_same (by omega)⟩

/-- Settles O39: the effect sets the mode, in which the engine makes no step and a press meets a held engine. -/
theorem keyWaitHoldsUntilAPress : Obligations.KeyWaitHoldsUntilAPress := by
  intro x s _
  have held : (s.retired (effectOf (.ldVxK x))).mode = .awaitingKey x := rfl
  have idle : (s.retired (effectOf (.ldVxK x))).stepEnabled = false := stepEnabled_eq_false (.inr (held ▸ nofun))
  exact ⟨encodedInstructionsDecodeBack (.ldVxK x) rfl, _, exec_of_checkOf_none rfl, writesPc_pc_executed (s.pc + 2) s, held,
    engineStep_of_not_enabled idle, fun k =>
      ⟨⟨_, handle_setKey _ k false, setKey_release _ k, rfl⟩, handle_press_of_held k held⟩⟩

end Sys2Proof.Machine
end

section
/-! PROOF. The host's events: each keeps the invariant, a key event changes its key and resumes a held engine, and inside a
tick the block takes key events, play and pause only (R131, R132, R138, R140, R142). -/

namespace Sys2Proof.Machine

variable {s : State}

/-- Settles O59 by `State.Inv.handle`, which goes through the events one by one. -/
theorem hostEventsKeepTheInvariant : Obligations.HostEventsKeepTheInvariant :=
  fun _ _ _ h e => h.handle e

/-- While a tick is in progress an event that comes between ticks is refused (R138). -/
theorem betweenTicks_of_tick (h : s.phase ≠ .between) (next : Host.Outcome State Fault Refusal) :
    s.betweenTicks next = .refused .tickInProgress :=
  if_neg h

/-- Settles O56: the five events come between ticks only, and play and pause write one field. -/
theorem eventsDuringATickAreRefused : Obligations.EventsDuringATickAreRefused := by
  refine ⟨fun e s hphase hkey hplay hpause => ?_, fun s => ⟨rfl, rfl⟩⟩
  cases e with
  | reset | load | tick | stepOnce | setCyclesPerTick => exact betweenTicks_of_tick hphase _
  | setKey code p => exact absurd rfl (hkey code p)
  | play => exact absurd rfl hplay
  | pause => exact absurd rfl hpause

/-- A press in a running engine changes the key's state alone (R131). -/
theorem setKey_of_running (k : Fin 16) (p : Bool) (h : s.mode = .running) :
    s.setKey k p = { s with keys := s.keys.set k p } := by
  cases p
  · exact setKey_release s k
  · simp only [State.setKey, h]; rfl

/-- A code above 0xF names no key (R132). -/
theorem handle_setKey_of_outOfRange {code : Nat} (p : Bool) (h : 16 ≤ code) :
    s.handle (.setKey code p) = .refused .keyCodeOutOfRange :=
  dif_neg (Nat.not_lt.mpr h)

/-- Settles O40: a release, a press in a running engine and a press in a held one, of a key that exists, and a refusal. -/
theorem keyEventsChangeTheKey : Obligations.KeyEventsChangeTheKey := by
  intro code p s
  refine ⟨?_, ?_, handle_setKey_of_outOfRange p⟩
  · rintro k rfl (rfl | hrun)
    · rw [handle_setKey, setKey_release]
    · rw [handle_setKey, setKey_of_running k p hrun]
  · rintro k d rfl rfl hheld
    obtain ⟨t, ht, frame, keys, regs, value⟩ := handle_press_of_held k hheld
    exact ⟨t, ht, keys ▸ frame, regs, value⟩

end Sys2Proof.Machine
end

section
/-! PROOF. Faults: what raises each, what the latch records, and that a faulted block stays halted until a reset or a load
(R119–R125, R136). -/

namespace Sys2Proof.Machine

open Sys2Proof.Config

variable {s t : State} {i : Instr} {code : Fault} {info : Option Nat}

/-! ## What a step of the engine comes to -/

/-- The word a step fetches from pc, none where its second byte does not exist (R53, R121). -/
def State.fetchedWord (s : State) : Option Word :=
  if s.pc.toNat + 1 ≤ 0xFFF then some (s.readByte s.pc.toNat ++ s.readByte (s.pc.toNat + 1)) else none

/-- A step of the engine without a fault standing: a held engine stays as it is, an instruction completes, or a fault with
the fetched word in its latch is taken, which is FETCH_RANGE exactly where there is no such word (R74, R75, R122). -/
theorem engineStep_outcome (hf : s.fault = none) (h : engineStep s = .next t) :
    (s.mode ≠ .running ∧ t = s) ∨
    (s.pc.toNat + 1 ≤ 0xFFF ∧ t.fault = none ∧ t.executed = s.executed ++ [s.pc]) ∨
    ∃ r, t = s.takeFault s.fetchedWord r ∧
      (0xFFF < s.pc.toNat + 1 ∧ r = ⟨.fetchRange, some s.pc.toNat⟩ ∨ s.pc.toNat + 1 ≤ 0xFFF ∧ r.code ≠ .fetchRange) := by
  rcases engineStep_cases s with ⟨hdis, e⟩ | ⟨-, hpc, e⟩ | ⟨-, hpc, e⟩ <;> rw [h] at e
  · cases e
    exact .inl ⟨fun hm => by simp [stepEnabled_iff.mpr ⟨hf, hm⟩] at hdis, rfl⟩
  · cases e
    have above : 0xFFF < s.pc.toNat + 1 := Nat.succ_lt_succ hpc
    have word : s.fetchedWord = none := if_neg (Nat.not_le.mpr above)
    exact .inr (.inr ⟨_, by rw [word], .inl ⟨above, rfl⟩⟩)
  · have inside : s.pc.toNat + 1 ≤ 0xFFF := Nat.succ_le_succ hpc
    rcases exec_cases _ s with ⟨r, hr, e'⟩ | ⟨-, e'⟩ <;> cases e.trans e'
    · have word : s.fetchedWord = some (wordOfBytes (s.readByte s.pc.toNat) (s.readByte (s.pc.toNat + 1))) :=
        if_pos inside
      exact .inr (.inr ⟨r, by rw [word, (decodedWordsEncodeBack _).2], .inr ⟨inside, checkOf_code hr⟩⟩)
    · obtain ⟨-, fault, executed, -⟩ := effectOf_keeps (decode _) s.advance
      exact .inr (.inl ⟨inside, fault.trans hf, congrArg (· ++ [s.pc]) executed⟩)

/-- The block's step inside a tick leaves the engine's step's latch, and a fault ends the tick (R124, R136). -/
theorem step_of_stepping_fault {k : Nat} (hk : s.phase = .stepping k) (h : step s = .next t) :
    ∃ u, engineStep s = .next u ∧ t.fault = u.fault ∧ (u.fault ≠ none → t = { u with phase := .between }) := by
  obtain ⟨u, hu⟩ := engineStep_next s
  rw [step_of_stepping hk hu, afterStep_eq] at h
  cases h
  exact ⟨u, hu, rfl, fun hfault => by rw [if_pos hfault]⟩

/-- Settles O42: of the three things a step of the engine comes to one sets the latch, and nothing else. -/
theorem faultsArePrecise : Obligations.FaultsArePrecise := by
  have precise : ∀ {s t : State} {f}, s.fault = none → engineStep s = .next t → t.fault = some f →
      t = { s with fault := some f } ∧ f.pc0 = s.pc ∧ f.word = s.fetchedWord := by
    intro s t f hf h hfault
    rcases engineStep_outcome hf h with ⟨-, rfl⟩ | ⟨-, hnone, -⟩ | ⟨r, rfl, -⟩
    · exact nomatch hf.symm.trans hfault
    · exact nomatch hnone.symm.trans hfault
    · cases hfault
      exact ⟨rfl, rfl, rfl⟩
  refine ⟨fun s t f => precise, fun s t f k hf hk h hfault => ?_⟩
  obtain ⟨u, hu, hlatch, hend⟩ := step_of_stepping_fault hk h
  have hfu : u.fault = some f := hlatch.symm.trans hfault
  obtain ⟨rfl, -, -⟩ := precise hf hu hfu
  exact ⟨hu, hend nofun⟩

/-! ## The fault table (R120) -/

/-- The latch of a taken fault records the code and the info of what raised it (R121). -/
theorem takeFault_records {w : Option Word} {r : Raised} :
    (∃ f, (s.takeFault w r).fault = some f ∧ f.code = code ∧ f.info = info) ↔ r = ⟨code, info⟩ := by
  constructor
  · rintro ⟨_, ⟨⟩, rfl, rfl⟩; rfl
  · rintro rfl; exact ⟨_, rfl, rfl, rfl⟩

/-- An instruction takes the fault its check raises, and no other. -/
theorem exec_faults_iff (hf : s.fault = none) (h : exec i s = .next t) :
    (∃ f, t.fault = some f ∧ f.code = code ∧ f.info = info) ↔ checkOf i s = some ⟨code, info⟩ := by
  rcases exec_cases i s with ⟨r, hr, e⟩ | ⟨hr, e⟩ <;> cases e.symm.trans h <;> rw [hr]
  · rw [takeFault_records, Option.some.injEq]
  · obtain ⟨-, fault, -⟩ := effectOf_keeps i s.advance
    exact ⟨fun ⟨_, hsome, _⟩ => absurd ((fault.trans hf).symm.trans hsome) nofun, nofun⟩

/-- A row of R120's table: the code, the condition, the info. -/
theorem and_raised_iff {p : Prop} {c : Fault} {n : Option Nat} :
    (p ∧ (⟨code, info⟩ : Raised) = ⟨c, n⟩) ↔ code = c ∧ p ∧ info = n := by
  rw [Raised.mk.injEq, and_left_comm]

/-- What an access of at most 16 bytes raises: MEM_RANGE at its lowest address above memory, or FONT_WRITE at a store's first
address (R57, R120, R123). -/
theorem checkAccess_eq_some {base count : Nat} {isWrite : Bool} (hle : count ≤ 16) (hpos : isWrite = true → 0 < count) :
    checkAccess base count isWrite = some ⟨code, info⟩ ↔
      (code = .memRange ∧ 1 ≤ count ∧ 0x1000 < base + count ∧ info = some (max base 0x1000)) ∨
      (code = .fontWrite ∧ isWrite = true ∧ base ≤ 0x4F ∧ info = some base) := by
  by_cases hmem : 1 ≤ count ∧ 0x1000 < base + count
  · have aboveFont : ¬base ≤ 0x4F := by omega
    rw [checkAccess_memRange hmem.2 hmem.1]
    simp [hmem, aboveFont, memSize, eq_comm]
  · by_cases hfont : isWrite = true ∧ base ≤ 0x4F
    · have inMemory : base + count ≤ memSize := by simp only [memSize]; omega
      rw [hfont.1, checkAccess_fontWrite inMemory (hpos hfont.1) (Nat.lt_succ_of_le hfont.2)]
      simp [← and_assoc, hmem, hfont, eq_comm]
    · have inside : count = 0 ∨ base + count ≤ memSize := by simp only [memSize]; omega
      have pass : checkAccess base count isWrite = none :=
        checkAccess_none.mpr (inside.imp_right (⟨·, fun hw => Nat.lt_of_not_le fun hb => hfont ⟨hw, hb⟩⟩))
      rw [pass]
      simp only [reduceCtorEq, false_iff]
      tauto

/-- Settles O43, instruction by instruction of the table: the faults of exec are those its check raises. -/
theorem onlyTheseInstructionsFault : Obligations.OnlyTheseInstructionsFault := by
  refine ⟨rfl, fun s t info hf hm h => ?_, fun i s t code info hf h => (exec_faults_iff hf h).trans ?_⟩
  · obtain ⟨u, hu, hfault⟩ : ∃ u, engineStep s = .next u ∧ t.fault = u.fault := by
      rcases h with h | ⟨⟨k, hk⟩, h⟩
      · exact ⟨t, h, rfl⟩
      · obtain ⟨u, hu, hfault, -⟩ := step_of_stepping_fault hk h
        exact ⟨u, hu, hfault⟩
    rw [hfault]
    rcases engineStep_outcome hf hu with ⟨hheld, -⟩ | ⟨hpc, hnone, -⟩ | ⟨r, rfl, ⟨hpc, rfl⟩ | ⟨hpc, hcode⟩⟩
    · exact absurd hm hheld
    · simp [hnone, Nat.not_lt.mpr hpc]
    · rw [takeFault_records, Raised.mk.injEq]
      exact ⟨fun h => ⟨hpc, h.2.symm⟩, fun h => ⟨rfl, h.2.symm⟩⟩
    · rw [takeFault_records]
      exact ⟨fun h => absurd (congrArg Raised.code h) hcode, fun h => absurd h.1 (Nat.not_lt.mpr hpc)⟩
  · cases i with
    | drw x y n => exact checkAccess_eq_some n.isLt.le nofun
    | ldB x => exact checkAccess_eq_some (by decide) (fun _ => by decide)
    | ldMemVx x => exact checkAccess_eq_some x.isLt (fun _ => x.val.succ_pos)
    | ldVxMem x => exact checkAccess_eq_some x.isLt nofun
    | ret => exact retCheck_eq_some.trans and_raised_iff
    | call nnn => exact callCheck_eq_some.trans and_raised_iff
    | skp x | sknp x => exact keyCheck_eq_some.trans and_raised_iff
    | addI x => exact addICheck_eq_some.trans and_raised_iff
    | _ => exact ⟨nofun, False.elim⟩

/-! ## The halted state (R124) -/

/-- A key event does not touch the latch (R131). -/
theorem setKey_fault (s : State) (k : Fin 16) (p : Bool) : (s.setKey k p).fault = s.fault := by
  simp only [State.setKey]
  split
  · split <;> rfl
  · rfl

/-- A load clears the latch, as the reset it begins with does (R148). -/
theorem loadImage_fault (s : State) (bytes : List Byte) : (s.loadImage bytes).fault = none := by
  rw [State.loadImage, writeBytes_eq_self_but_mem]; rfl

/-- A tick of a faulted block does nothing (R124). -/
theorem tick_of_fault (hf : s.fault ≠ none) : tick s = .next s :=
  if_pos (Option.isSome_iff_ne_none.mpr hf)

/-- In a faulted block every accepted event but a reset or a load keeps the latch (R124). -/
theorem fault_of_handle {e : HostEvent} (hf : s.fault ≠ none) (h : s.handle e = .next t) (hreset : e ≠ .reset)
    (hload : ∀ bytes, e ≠ .load bytes) : t.fault = s.fault := by
  have hdis := stepEnabled_eq_false (.inl hf)
  cases e with
  | reset => exact absurd rfl hreset
  | load bytes => exact absurd rfl (hload bytes)
  | tick =>
    obtain ⟨-, e⟩ := betweenTicks_eq_next.mp h
    rw [beginTick_of_fault hf] at e
    cases e; rfl
  | stepOnce =>
    obtain ⟨-, e⟩ := betweenTicks_eq_next.mp h
    cases (stepOnce_of_not_enabled hdis).symm.trans e; rfl
  | setKey code p =>
    simp only [State.handle] at h
    split at h <;> cases h
    exact setKey_fault s _ p
  | setCyclesPerTick n =>
    obtain ⟨-, e⟩ := betweenTicks_eq_next.mp h
    split at e <;> cases e
    rfl
  | play | pause => cases h; rfl

/-- Settles O44: the invariant puts a faulted block between ticks, not held, where no step is enabled. -/
theorem faultedBlockStaysHalted : Obligations.FaultedBlockStaysHalted := by
  intro s hinv hf
  obtain ⟨hrun, hphase⟩ := hinv.fault_idle hf
  have hdis := stepEnabled_eq_false (.inl hf)
  have between := betweenTicks_of_between hphase
  refine ⟨hdis, step_of_fault hphase hf, tick_of_fault hf, (between _).trans (by rw [beginTick_of_fault hf]),
    (between _).trans (stepOnce_of_not_enabled hdis), fun k p => by rw [handle_setKey, setKey_of_running k p hrun],
    ⟨_, between _, rfl⟩, fun bytes hb => ⟨_, (between _).trans (if_pos hb), loadImage_fault s bytes⟩, fun e t he hnone => ?_⟩
  by_contra hother
  obtain ⟨hreset, hload⟩ := not_or.mp hother
  exact hf ((fault_of_handle hf he hreset (not_exists.mp hload)).symm.trans hnone)

end Sys2Proof.Machine
end

section
/-! PROOF. The tick: the decay and the frame that end it, what its steps report, and that it is the run of its moves
(R128, R129, R133, R136–R141). -/

namespace Sys2Proof.Machine

variable {s t u : State}

/-! ## The decay and the frame (R128, R133) -/

/-- Settles O41: the decay counts both timers down and appends the beep where ST was 1. -/
theorem timerDecayBeepsOnce : Obligations.TimerDecayBeepsOnce := by
  intro s
  rw [timerDecay_eq_update]
  exact ⟨countDown_toNat _, countDown_toNat _, rfl, rfl⟩

/-- What a tick makes of the state its loop leaves: the end of the tick, but none where a fault stands (R124, R136). -/
def State.endTick (s : State) : State := if s.fault.isSome then s else s.finishTick

theorem endTick_of_fault (h : s.fault ≠ none) : s.endTick = s :=
  if_pos (Option.isSome_iff_ne_none.mpr h)

theorem endTick_of_ok (h : s.fault = none) : s.endTick = s.finishTick :=
  if_neg (by simp [h])

/-- A tick of an unfaulted block is its loop and what follows the loop. -/
theorem tick_of_tickLoop (hf : s.fault = none) (h : tickLoop s.cyclesPerTick s.clearReport = .next t) :
    tick s = .next t.endTick := by
  rw [tick, if_neg (by simp [hf]), h]
  rfl

/-- A tick of a held engine runs no step (R137). -/
theorem tick_of_held (hf : s.fault = none) (hm : s.mode ≠ .running) : tick s = .next s.clearReport.finishTick := by
  have idle : s.clearReport.stepEnabled = false := stepEnabled_eq_false (.inr hm)
  have ok : s.clearReport.fault = none := hf
  rw [tick_of_tickLoop hf (tickLoop_of_not_enabled idle _), endTick_of_ok ok]

/-- Settles O48: no step of a held engine is enabled, so the tick's loop ends at once and the tick at its end. -/
theorem heldTickOnlyDecays : Obligations.HeldTickOnlyDecays := by
  refine fun s => ⟨fun d hf hm => ?_, tick_of_fault⟩
  refine ⟨_, s.clearReport.frameReport, tick_of_held hf (hm ▸ nofun), ?_⟩
  rw [finishTick_eq_update]
  exact ⟨rfl, countDown_toNat _, countDown_toNat _, rfl, rfl, rfl, rfl, rfl, rfl, rfl, rfl, rfl⟩

/-! ## The single step (R139) -/

/-- No step of the engine emits an output (R129, R133). -/
theorem engineStep_outputs (h : engineStep s = .next t) : t.outputs = s.outputs := by
  obtain ⟨-, -, -, -, outputs, -⟩ := engineStep_keeps h
  exact outputs

/-- A single step whose engine step completes decays the timers if the parameter says so, and presents the frame. -/
theorem stepOnceWith_of_completed {decays : Bool} (hf : s.fault = none) (hm : s.mode = .running)
    (h : engineStep s.clearReport = .next t) (ht : t.fault = none) :
    stepOnceWith decays s = .next (if decays then t.timerDecay else t).presentFrame := by
  simp [stepOnceWith, stepEnabled_iff.mpr ⟨hf, hm⟩, h, ht]

/-- A completed step of the engine with a clear report leaves its own pc0 there alone (R75, R139). -/
theorem executed_of_clearReport (hf : s.fault = none) (hm : s.mode = .running)
    (h : engineStep s.clearReport = .next t) (ht : t.fault = none) : t.executed = [s.pc] := by
  rcases engineStep_outcome (s := s.clearReport) hf h with ⟨hheld, -⟩ | ⟨-, -, executed⟩ | ⟨r, rfl, -⟩
  · exact absurd hm hheld
  · exact executed
  · exact nomatch ht

/-- Settles O50: the step's state with its one-step report, decayed or not, is what the frame presents. -/
theorem singleStepPresentsItsStep : Obligations.SingleStepPresentsItsStep := by
  refine ⟨fun decays s t hf hm h ht => ?_, fun s hphase => betweenTicks_of_between hphase _⟩
  have executed : t.executed = [s.pc] := executed_of_clearReport hf hm h ht
  have outputs : t.outputs = s.outputs := engineStep_outputs (s := s.clearReport) h
  refine ⟨_, (if decays then t.timerDecay else t).frameReport, stepOnceWith_of_completed hf hm h ht, ?_⟩
  cases decays
  · exact ⟨rfl, executed, rfl, rfl, by simp [outputs], rfl, rfl, executed, rfl, rfl, rfl, rfl, rfl⟩
  · rw [if_pos rfl, timerDecay_eq_update]
    exact ⟨rfl, executed, countDown_toNat _, countDown_toNat _, by simp [outputs], rfl, rfl, executed, rfl, rfl, rfl, rfl,
      rfl⟩

/-! ## The loop of a tick, and its budget (R136) -/

/-- With no fault standing the loop ends where the engine is held, and otherwise goes on from the engine's step. -/
theorem tickLoop_cases (left : Nat) (hf : s.fault = none) :
    (s.mode ≠ .running ∧ tickLoop (left + 1) s = .next s) ∨
    ∃ t, s.mode = .running ∧ engineStep s = .next t ∧ tickLoop (left + 1) s = tickLoop left t := by
  by_cases hm : s.mode = .running
  · obtain ⟨t, ht⟩ := engineStep_next s
    exact .inr ⟨t, hm, ht, tickLoop_of_enabled (stepEnabled_iff.mpr ⟨hf, hm⟩) ht left⟩
  · exact .inl ⟨hm, tickLoop_of_not_enabled (stepEnabled_eq_false (.inr hm)) _⟩

/-- The loop ends where a fault stands. -/
theorem tickLoop_of_fault (left : Nat) (hf : s.fault ≠ none) : tickLoop left s = .next s :=
  tickLoop_of_not_enabled (stepEnabled_eq_false (.inl hf)) left

/-- A step of the engine reports at most one more instruction. -/
theorem engineStep_executed_le (hf : s.fault = none) (h : engineStep s = .next t) :
    t.executed.length ≤ s.executed.length + 1 := by
  rcases engineStep_outcome hf h with ⟨-, rfl⟩ | ⟨-, -, executed⟩ | ⟨r, rfl, -⟩
  · exact Nat.le_succ _
  · rw [executed, List.length_append, List.length_singleton]
  · exact Nat.le_succ _

/-- The loop reports at most as many instructions as it may make steps, and emits nothing. -/
theorem tickLoop_outcome (left : Nat) (hf : s.fault = none) :
    ∃ t, tickLoop left s = .next t ∧ t.executed.length ≤ s.executed.length + left ∧ t.outputs = s.outputs := by
  induction left generalizing s with
  | zero => exact ⟨s, rfl, Nat.le_refl _, rfl⟩
  | succ left ih =>
    rcases tickLoop_cases left hf with ⟨-, hend⟩ | ⟨u, -, hu, hloop⟩
    · exact ⟨s, hend, Nat.le_add_right .., rfl⟩
    · have one := engineStep_executed_le hf hu
      have outputs : u.outputs = s.outputs := engineStep_outputs hu
      rw [hloop]
      by_cases hfu : u.fault = none
      · obtain ⟨t, ht, more, keeps⟩ := ih hfu
        exact ⟨t, ht, by omega, keeps.trans outputs⟩
      · exact ⟨u, tickLoop_of_fault left hfu, by omega, outputs⟩

/-- Settles O49: the loop stays within the budget and emits nothing, and only the end of the tick, where no fault stands,
appends a beep or none and the frame. -/
theorem tickStaysWithinTheBudget : Obligations.TickStaysWithinTheBudget := by
  intro s t hf h
  obtain ⟨u, hu, executed, outputs⟩ := tickLoop_outcome (s := s.clearReport) s.cyclesPerTick hf
  have executed : u.executed.length ≤ s.cyclesPerTick := executed.trans (Nat.zero_add _).le
  have outputs : u.outputs = s.outputs := outputs
  rw [tick_of_tickLoop hf hu, Host.Outcome.next.injEq] at h
  by_cases hfu : u.fault = none
  · rw [endTick_of_ok hfu, finishTick_eq_update] at h
    subst h
    refine ⟨executed, fun _ => ⟨rfl, if u.st = 1 then [.beep] else [], u.frameReport, by rw [outputs], ?_, rfl⟩, absurd hfu⟩
    split
    · exact .inr rfl
    · exact .inl rfl
  · rw [endTick_of_fault hfu] at h
    subst h
    exact ⟨executed, (absurd · hfu), fun _ => outputs⟩

/-! ## The moves of a tick (R136, R138) -/

/-- From b at most n moves of the block come to an outcome, and before the last of them a tick is in progress. -/
def EndsTickWithin (n : Nat) (b : State) (o : Host.Outcome State Fault Refusal) : Prop :=
  ∃ k, k ≤ n ∧ Host.Core.run Sys2Proof.core k b = o ∧
    ∀ j < k, ∃ u, Host.Core.run Sys2Proof.core j b = .next u ∧ u.phase ≠ .between

/-- No move is made where the outcome stands already. -/
theorem endsTickWithin_self (n : Nat) (b : State) : EndsTickWithin n b (.next b) :=
  ⟨0, Nat.zero_le n, rfl, nofun⟩

/-- A move of the tick in progress is made before the moves that follow it. -/
theorem endsTickWithin_succ {n : Nat} {o : Host.Outcome State Fault Refusal} (hp : s.phase ≠ .between)
    (h : step s = .next t) (ht : EndsTickWithin n t o) : EndsTickWithin (n + 1) s o := by
  obtain ⟨k, hk, hrun, hbefore⟩ := ht
  refine ⟨k + 1, Nat.succ_le_succ hk, (run_succ_of_step h k).trans hrun, fun j hj => ?_⟩
  cases j with
  | zero => exact ⟨s, rfl, hp⟩
  | succ j =>
    rw [run_succ_of_step h]
    exact hbefore j (Nat.lt_of_succ_lt_succ hj)

/-- The engine's step does not read or write the tick's phase. -/
theorem engineStep_withPhase (h : engineStep s = .next t) (p : Phase) :
    engineStep { s with phase := p } = .next { t with phase := p } := by
  have enabled : { s with phase := p }.stepEnabled = s.stepEnabled := rfl
  have fetch : { s with phase := p }.fetch = s.fetch := rfl
  unfold engineStep at h ⊢
  rw [enabled, fetch]
  cases he : s.stepEnabled with
  | false => rw [he] at h; cases h; rfl
  | true =>
    rw [he] at h
    cases hw : s.fetch with
    | error r => rw [hw] at h; cases h; rfl
    | ok w => rw [hw] at h; exact exec_withPhase h p

/-- A tick that makes no further step ends with one more move. -/
theorem endsTickWithin_finishing {done : Nat} (n : Nat) (hf : s.fault = none) (hp : s.phase = .between)
    (hdone : nextPhase done s = .finishing) :
    EndsTickWithin (n + 1) { s with phase := nextPhase done s } (.next s.endTick) := by
  have last : step { s with phase := .finishing } = .next s.finishTick := by
    rw [step_of_finishing rfl, finishTick_eq_update, finishTick_eq_update, ← hp]
    rfl
  rw [hdone, endTick_of_ok hf]
  exact endsTickWithin_succ nofun last (endsTickWithin_self n _)

/-- From a place in the tick, with as many steps left as the budget has, the moves come to where the loop and its end do. -/
theorem endsTickWithin_tickLoop (left done : Nat) (hf : s.fault = none) (hp : s.phase = .between)
    (hleft : done + left = s.cyclesPerTick) :
    ∃ t, tickLoop left s = .next t ∧
      EndsTickWithin (left + 1) { s with phase := nextPhase done s } (.next t.endTick) := by
  induction left generalizing s done with
  | zero =>
    have spent : nextPhase done s = .finishing := by rw [nextPhase_eq, if_neg (by omega)]
    exact ⟨s, rfl, endsTickWithin_finishing 0 hf hp spent⟩
  | succ left ih =>
    rcases tickLoop_cases left hf with ⟨hheld, hend⟩ | ⟨u, hm, hu, hloop⟩
    · have held : nextPhase done s = .finishing := by rw [nextPhase_eq, if_neg (by simp [hheld])]
      exact ⟨s, hend, endsTickWithin_finishing (left + 1) hf hp held⟩
    · obtain ⟨cycles, phase, -⟩ := engineStep_keeps hu
      have next : nextPhase done s = .stepping done := by rw [nextPhase_eq, if_pos ⟨hm, by omega⟩]
      have move : step { s with phase := nextPhase done s } = .next (u.afterStep done) := by
        rw [next, step_of_stepping rfl (engineStep_withPhase hu _)]
        rfl
      rw [hloop]
      by_cases hfu : u.fault = none
      · obtain ⟨t, ht, hends⟩ := ih (done + 1) hfu (phase.trans hp) (by omega)
        have goesOn : u.afterStep done = { u with phase := nextPhase (done + 1) u } := by simp [State.afterStep, hfu]
        exact ⟨t, ht, endsTickWithin_succ (by simp [next]) (goesOn ▸ move) hends⟩
      · have ended : u.afterStep done = u := by
          rw [afterStep_eq, if_pos hfu, ← phase.trans hp]
        refine ⟨u, tickLoop_of_fault left hfu, ?_⟩
        rw [endTick_of_fault hfu]
        exact endsTickWithin_succ (by simp [next]) (ended ▸ move) (endsTickWithin_self _ u)

/-- From the state a tick event leaves, at most the budget's steps and one more come to the state of R136's tick. -/
theorem endsTickWithin_tick (hp : s.phase = .between) :
    EndsTickWithin (s.cyclesPerTick + 1) s.beginTick (tick s) := by
  by_cases hf : s.fault = none
  · obtain ⟨t, ht, hends⟩ := endsTickWithin_tickLoop (s := s.clearReport) s.cyclesPerTick 0 hf hp (Nat.zero_add _)
    rw [tick_of_tickLoop hf ht, beginTick_of_ok hf]
    exact hends
  · rw [tick_of_fault hf, beginTick_of_fault hf]
    exact endsTickWithin_self _ s

/-- The step of a playing host is the step of the state a tick event leaves (R140). -/
theorem step_beginTick (hp : s.phase = .between) (hplay : s.playing = true) : step s = step s.beginTick := by
  rw [step_of_playing hp hplay]
  by_cases hf : s.fault = none
  · rw [step_of_tick]
    rw [beginTick_of_ok hf, nextPhase_eq]
    split <;> simp
  · rw [beginTick_of_fault hf, step_of_fault hp hf, tickMove, hp]

/-- Settles O47: the begin of a tick, case by case, the run of its moves by induction on the budget, and its last move. -/
theorem tickIsTheRunOfItsMoves : Obligations.TickIsTheRunOfItsMoves := by
  refine ⟨fun s hp => ⟨s.beginTick, betweenTicks_of_between hp _, fun hf hm hbudget => ?_, fun hf hm => ?_,
    beginTick_of_fault, step_beginTick hp, endsTickWithin_tick hp⟩, fun s hp => ?_⟩
  · rw [beginTick_of_ok hf, nextPhase_eq, if_pos ⟨hm, hbudget⟩]
  · rw [beginTick_of_ok hf, nextPhase_eq, if_neg (by simp [hm])]
  · refine ⟨_, s.frameReport, step_of_finishing hp, ?_⟩
    rw [finishTick_eq_update]
    exact ⟨rfl, countDown_toNat _, countDown_toNat _, rfl, rfl, rfl, rfl, rfl, rfl, rfl, rfl, rfl⟩

end Sys2Proof.Machine
end

section
/-! PROOF. Load places its image in the reset block (R148, R149), a state is observed in one condition (R151), and a parked
engine stays parked through its steps and ticks (R152). -/

namespace Sys2Proof.Machine

open Sys2Proof.Config

variable {s : State} {bytes : List Byte}

/-! ## Load (R148, R149) -/

/-- A load changes nothing of the reset block but memory (R148). -/
theorem loadImage_eq_resetBlock_but_mem (s : State) (bytes : List Byte) :
    s.loadImage bytes = { s.resetBlock with mem := (s.loadImage bytes).mem } :=
  writeBytes_eq_self_but_mem programBase bytes s.resetBlock

/-- Reset lists no byte of memory: every address reads as R42 says. -/
theorem resetBlock_mem_wf (s : State) : Memory.wf s.resetBlock.params.font s.resetBlock.mem := ⟨.nil, nofun⟩

/-- An image that fits ends inside memory (R149). -/
theorem programBase_add_length_le (hfits : bytes.length ≤ maxImage) : programBase + bytes.length ≤ memSize :=
  Nat.add_le_add_left hfits programBase

/-- Below 0x200 a load leaves the bytes of the reset. -/
theorem readByte_loadImage_below (hfits : bytes.length ≤ maxImage) {a : Nat} (ha : a < programBase) :
    (s.loadImage bytes).readByte a = s.resetBlock.readByte a := by
  rw [State.loadImage, readByte_writeBytes (resetBlock_mem_wf s) (programBase_add_length_le hfits), dif_neg (by omega)]

/-- From 0x200 on a load leaves the image, and behind it the bytes of the reset. -/
theorem readByte_loadImage (hfits : bytes.length ≤ maxImage) (k : Nat) :
    (s.loadImage bytes).readByte (programBase + k) = bytes.getD k (s.resetBlock.readByte (programBase + k)) := by
  rw [State.loadImage, readByte_writeBytes (resetBlock_mem_wf s) (programBase_add_length_le hfits)]
  by_cases hk : k < bytes.length <;> simp [hk]

/-- Settles O52: a load that fits is a reset and a run of writes from 0x200 on, and any other is refused. -/
theorem loadPlacesTheImage : Obligations.LoadPlacesTheImage := by
  intro bytes s hphase
  constructor
  · intro hfits
    have hload : s.handle (.load bytes) = .next (s.loadImage bytes) :=
      (betweenTicks_of_between hphase _).trans (if_pos hfits)
    exact ⟨s.resetBlock, s.loadImage bytes, betweenTicks_of_between hphase _, hload,
      loadImage_eq_resetBlock_but_mem s bytes, fun _ => readByte_loadImage_below hfits, readByte_loadImage hfits⟩
  · intro hlong
    exact (betweenTicks_of_between hphase _).trans (if_neg (Nat.not_le.mpr hlong))

/-! ## The conditions of a run (R151) -/

/-- A word decodes to the jump to an address exactly when it is that jump's word (R67, R71). -/
theorem decode_eq_jp_iff {w : Word} {nnn : Addr} : decode w = .jp nnn ↔ w = formatA 0x1 nnn := by
  constructor
  · intro h
    rw [← (decodedWordsEncodeBack w).2, h]
    rfl
  · rintro rfl
    exact encodedInstructionsDecodeBack (.jp nnn) rfl

/-- The low twelve bits of a pc inside memory are its address, and no other address has its value. -/
theorem eq_setWidth_pc_iff {nnn : Addr} (hpc : s.pc.toNat ≤ 0xFFE) :
    nnn = s.pc.setWidth 12 ↔ nnn.toNat = s.pc.toNat := by
  bv_omega

/-- Parked: the word at pc exists and is the jump to pc. -/
theorem isParked_iff : s.isParked = true ↔ s.pc.toNat ≤ 0xFFE ∧ ∃ nnn : Addr, nnn.toNat = s.pc.toNat ∧
    s.readByte s.pc.toNat ++ s.readByte (s.pc.toNat + 1) = formatA 0x1 nnn := by
  unfold State.isParked
  by_cases hpc : s.pc.toNat ≤ 0xFFE
  · rw [fetch_ok hpc]
    simp only [beq_iff_eq, decode_eq_jp_iff, hpc, true_and, ← eq_setWidth_pc_iff hpc, exists_eq_left]
    rfl
  · rw [fetch_error (Nat.lt_of_not_le hpc)]
    simp [hpc]

theorem condition_of_fault (hf : s.fault ≠ none) : s.condition = .faulted :=
  if_pos (Option.isSome_iff_ne_none.mpr hf)

theorem condition_of_held (hf : s.fault = none) (hm : s.mode ≠ .running) : s.condition = .held := by
  simp [State.condition, hf, hm]

theorem condition_of_running (hf : s.fault = none) (hm : s.mode = .running) :
    s.condition = if s.isParked then .parked else .running := by
  simp [State.condition, hf, hm]

/-- Settles O55: a fault stands, or the engine is held, or the self-jump decides. -/
theorem runIsObservedInOneCondition : Obligations.RunIsObservedInOneCondition := by
  intro s
  rw [← isParked_iff]
  by_cases hf : s.fault = none
  · by_cases hm : s.mode = .running
    · rw [condition_of_running hf hm]
      cases s.isParked <;> simp [hf, hm]
    · simp [condition_of_held hf hm, hf, hm]
  · simp [condition_of_fault hf, hf]

/-! ## The parked engine (R152) -/

/-- The step of a parked engine jumps to the pc it is at, so it changes nothing but the report (R81, R152). -/
theorem engineStep_of_parked (hf : s.fault = none) (hm : s.mode = .running) (hparked : s.isParked = true) :
    engineStep s = .next (s.report s.pc) := by
  obtain ⟨hpc, nnn, hnnn, hword⟩ := isParked_iff.mp hparked
  have htarget : addrWord nnn = s.pc := BitVec.eq_of_toNat_eq ((toNat_addrWord nnn).trans hnnn)
  rw [engineStep_of_fetch hf hm hpc, decode_eq_jp_iff.mpr hword,
    exec_of_effectOf_pc_stack (target := addrWord nnn) (as := s.stack) rfl rfl, htarget]
  rfl

/-- A parked engine makes every step its tick allows, each at the same pc (R136, R152). -/
theorem tickLoop_of_parked (left : Nat) (hf : s.fault = none) (hm : s.mode = .running) (hparked : s.isParked = true) :
    tickLoop left s = .next { s with executed := s.executed ++ List.replicate left s.pc } := by
  induction left generalizing s with
  | zero => rw [List.replicate_zero, List.append_nil]; rfl
  | succ left ih =>
    have hrest := ih (s := s.report s.pc) hf hm hparked
    rw [tickLoop_of_enabled (stepEnabled_iff.mpr ⟨hf, hm⟩) (engineStep_of_parked hf hm hparked), hrest]
    simp [List.replicate_succ]

/-- The tick of a parked engine is the end of a tick on a report of the whole budget (R136, R152). -/
theorem tick_of_parked (hf : s.fault = none) (hm : s.mode = .running) (hparked : s.isParked = true) :
    tick s = .next { s with executed := List.replicate s.cyclesPerTick s.pc }.finishTick := by
  have hloop : tickLoop s.cyclesPerTick s.clearReport = .next { s with executed := List.replicate s.cyclesPerTick s.pc } :=
    tickLoop_of_parked (s := s.clearReport) s.cyclesPerTick hf hm hparked
  have ok : { s with executed := List.replicate s.cyclesPerTick s.pc }.fault = none := hf
  rw [tick_of_tickLoop hf hloop, endTick_of_ok ok]

/-- Settles O54: the engine's step and tick of a parked state, whose memory and pc neither of them changes. -/
theorem parkedEngineStays : Obligations.ParkedEngineStays := by
  intro s hf hm hparked
  refine ⟨engineStep_of_parked hf hm hparked, _,
    { s with executed := List.replicate s.cyclesPerTick s.pc }.frameReport, tick_of_parked hf hm hparked, ?_⟩
  rw [finishTick_eq_update]
  exact ⟨rfl, countDown_toNat _, countDown_toNat _, rfl, rfl, rfl, rfl, rfl, rfl, rfl, rfl, rfl, hparked⟩

end Sys2Proof.Machine
end
